-- ==== Sys2Proof/Word.lean ====
section
/-! DEFINITION. The byte and the word. A word's width is a parameter of the machine (00_scope.md R8), so the word
type takes it as an argument; Config.lean fixes which widths exist. -/

namespace Sys2Proof

/-- A code byte, a stack entry or an operand byte (R7). -/
abbrev Byte := BitVec 8

/-- An unsigned word of `w` bits (R8, R9). -/
abbrev Word (w : Nat) := BitVec w

/-- The largest word, `2^w - 1` (R121). -/
abbrev Word.top (w : Nat) : Word w := BitVec.allOnes w

end Sys2Proof
end

