-- ==== Sys2Proof/Config.lean ====
section
/-! DEFINITION. What an implementation fixes (00_scope.md section 4): WORD_BITS and STACK_CAP. Both are left open by
the spec (92_eei_decisions.md D1 and D4), so every definition and statement takes them as an argument. The spec leaves
no value free (R230 "No value is left unspecified."), so there is no opaque constant here. -/

namespace Sys2Proof

/-- The four values WORD_BITS may take (R8). -/
inductive WordSize where
  | w8
  | w16
  | w32
  | w64
  deriving DecidableEq, Repr

/-- WORD_BITS as a number (R8). -/
def WordSize.bits : WordSize → Nat
  | .w8 => 8
  | .w16 => 16
  | .w32 => 32
  | .w64 => 64

/-- STACK_CAP (R11): `unbounded`, or a number of entries, which the spec requires to be positive (`StackCap.wf`). -/
inductive StackCap where
  | unbounded
  | entries (n : Nat)
  deriving DecidableEq, Repr

/-- "either `unbounded` ... or a positive integer" (R11). -/
def StackCap.wf : StackCap → Bool
  | .unbounded => true
  | .entries n => decide (0 < n)

/-- A stack of `depth` entries is within the capacity: `depth <= STACK_CAP` (R31). -/
def StackCap.holds : StackCap → Nat → Bool
  | .unbounded, _ => true
  | .entries n, depth => decide (depth ≤ n)

/-- The implementation parameters of one machine. -/
structure Config where
  wordSize : WordSize
  stackCap : StackCap
  deriving DecidableEq, Repr

/-- W, the width in bits of every register and of ip (R8, R9). -/
abbrev Config.bits (c : Config) : Nat := c.wordSize.bits

/-- A W-bit word of the machine `c`. -/
abbrev Config.Word (c : Config) := Sys2Proof.Word c.bits

/-- A legal configuration: any width, and an unbounded or positive stack capacity (R8, R11). -/
def Config.wf (c : Config) : Bool := c.stackCap.wf

/-- The reference configuration: W = 64 (R8), STACK_CAP unbounded (R11). -/
def Config.reference : Config := { wordSize := .w64, stackCap := .unbounded }

end Sys2Proof
end

