-- ==== Sys2Proof/Syntax.lean ====
section
/-! DEFINITION. The instructions (30_encoding.md). An operand is kept as the whole code byte that holds it ("the raw
operand byte reinterpreted as a register index", R24); WellFormed.lean says which bytes name a register. -/

namespace Sys2Proof

/-- A decoded instruction (R86): one constructor per row of spec/opcode_table.json. -/
inductive Instr where
  /-- NOP (R140) -/
  | nop
  /-- HLT (R141) -/
  | hlt
  /-- JMP Rr (R160) -/
  | jmp (r : Byte)
  /-- RET (R162) -/
  | ret
  /-- PUSH Rr (R151) -/
  | push (r : Byte)
  /-- POP Rr (R152) -/
  | pop (r : Byte)
  /-- PRN Rr (R142) -/
  | prn (r : Byte)
  /-- CALL Rr (R161) -/
  | call (r : Byte)
  /-- LDI Rr,imm (R150) -/
  | ldi (r imm : Byte)
  /-- MUL Ra,Rb (R170) -/
  | mul (ra rb : Byte)
  /-- DIV Ra,Rb (R171) -/
  | div (ra rb : Byte)
  deriving DecidableEq, Repr

/-- The eleven opcodes of the closed opcode map (R2, R86), by name. -/
inductive Opcode where
  | nop
  | hlt
  | jmp
  | ret
  | push
  | pop
  | prn
  | call
  | ldi
  | mul
  | div
  deriving DecidableEq, Repr

/-- The opcode of an instruction. -/
def Instr.opcode : Instr → Opcode
  | .nop => .nop
  | .hlt => .hlt
  | .jmp _ => .jmp
  | .ret => .ret
  | .push _ => .push
  | .pop _ => .pop
  | .prn _ => .prn
  | .call _ => .call
  | .ldi _ _ => .ldi
  | .mul _ _ => .mul
  | .div _ _ => .div

/-- The register fields of an instruction, in operand order (R81, R85). The immediate of LDI is none (R84, R89). -/
def Instr.regFields : Instr → List Byte
  | .nop => []
  | .hlt => []
  | .jmp r => [r]
  | .ret => []
  | .push r => [r]
  | .pop r => [r]
  | .prn r => [r]
  | .call r => [r]
  | .ldi r _ => [r]
  | .mul ra rb => [ra, rb]
  | .div ra rb => [ra, rb]

end Sys2Proof
end

