-- ==== Sys2Proof/Machine/State.lean ====
section
/-! DEFINITION. The architectural state (10_state.md) as plain data, and reset (70_reset_and_hazards.md). -/

namespace Sys2Proof.Machine

/-- The fault kinds of the spec (R201). A fault is TAKEN: the instruction's meaning or the decode step answers a NEXT
state with status Faulted and this kind in its record (R205), so `step` never answers `Outcome.fault` with one of
them (log entry 4). That is exact, hence safe: no run of the model ends where the hardware goes on. -/
inductive Fault where
  /-- code 1, raised by the opcode fetch of a step on a byte outside the opcode map (R114); taken, safe -/
  | invalidInstruction
  /-- code 2, raised by POP and RET on an empty stack (R61); taken, safe -/
  | stackUnderflow
  /-- code 3, raised by DIV when the divisor register holds 0 (R171); taken, safe -/
  | divideByZero
  /-- code 4, raised at decode by any instruction with a register field of 8 or more (R117); taken, safe -/
  | registerOutOfRange
  /-- code 5, raised at decode when an operand byte lies at or beyond CODE_LEN (R116); taken, safe -/
  | truncatedInstruction
  /-- code 6, raised by the advance when ip = 2^W - 1 (R121); taken, safe -/
  | ipOverflow
  /-- code 7, raised by PUSH and CALL on a full stack of finite capacity (R60); taken, safe -/
  | stackOverflow
  deriving DecidableEq, Repr

/-- Why the model gives no meaning. -/
inductive Refusal where
  /-- An arm of `exec` without a meaning yet. No arm is left so; a refusal would be safe. -/
  | notModelled (mnemonic : String)
  deriving DecidableEq, Repr

/-- The run status (R27). -/
inductive RunStatus where
  | idle
  | running
  | halted
  | faulted
  deriving DecidableEq, Repr

/-- The fault record (R30): the kind stands for FAULT_CODE (`Fault.code`), `addr` is FAULT_ADDR, `info` FAULT_INFO. -/
structure FaultRecord (w : Nat) where
  kind : Fault
  addr : Word w
  info : Byte
  deriving DecidableEq, Repr

/-- A fault being raised in a step: `raise Fault(kind, info)` (R13). It lives inside one step only. -/
structure Raise where
  kind : Fault
  info : Byte
  deriving DecidableEq, Repr

/-- Bytes by address, addresses strictly rising, zero bytes not listed (`Memory.wf`; log entry 5). -/
abbrev Memory := List Host.Cell

/-- The architectural state `(x[0..7], ip, status, fault, stack, code, out)` (R20) of a machine of configuration `c`.
"Nothing else is state". -/
structure ArchState (c : Config) where
  /-- x[0] to x[7] (R22) -/
  x : Vector c.Word 8
  /-- the instruction pointer (R25) -/
  ip : c.Word
  /-- the run status (R27) -/
  status : RunStatus
  /-- the fault record (R30) -/
  fault : Option (FaultRecord c.bits)
  /-- the byte stack, top first (R31) -/
  stack : List Byte
  /-- CODE_LEN, a W-bit value: `0 <= CODE_LEN <= 2^W - 1` (R10) -/
  codeLen : c.Word
  /-- the code memory: the bytes at addresses below CODE_LEN (R51) -/
  code : Memory
  /-- the output trace, oldest first (R33) -/
  out : List c.Word
  deriving DecidableEq, Repr

/-- A machine: its fixed configuration and its architectural state. No instruction and no host action changes `cfg`
(log entry 1). -/
structure State where
  cfg : Config
  arch : ArchState cfg
  deriving DecidableEq, Repr

/-- The reset values (R230), for a core of configuration `c` that no code was loaded into: code empty (R232). -/
def ArchState.reset (c : Config) : ArchState c :=
  { x := Vector.replicate 8 0
    ip := 0
    status := .idle
    fault := none
    stack := []
    codeLen := 0
    code := []
    out := [] }

/-- The machine right after reset, in the reference configuration (R8, R11, R230, R232). -/
def State.reset : State := { cfg := Config.reference, arch := ArchState.reset Config.reference }

end Sys2Proof.Machine
end

