-- ==== Sys2Proof/Machine/Flags.lean ====
section
/-! DEFINITION. The only flag of the core is its run status (10_state.md R27 to R29): no instruction computes a
condition code, carry, overflow or zero flag. -/

namespace Sys2Proof.Machine

/-- The status output's encoding (R27). -/
def RunStatus.code : RunStatus → Nat
  | .idle => 0
  | .running => 1
  | .halted => 2
  | .faulted => 3

/-- FAULT_CODE (R201). -/
def Fault.code : Fault → Nat
  | .invalidInstruction => 1
  | .stackUnderflow => 2
  | .divideByZero => 3
  | .registerOutOfRange => 4
  | .truncatedInstruction => 5
  | .ipOverflow => 6
  | .stackOverflow => 7

/-- The source's `terminated` flag, derived: `status != Running` (R28). -/
def ArchState.terminated {c : Config} (m : ArchState c) : Bool := decide (m.status ≠ .running)

/-- A run is over exactly when status is Halted or Faulted (R122). -/
def ArchState.runOver {c : Config} (m : ArchState c) : Bool := decide (m.status = .halted ∨ m.status = .faulted)

/-- `status <- Halted` (R112, R141). -/
def ArchState.halt {c : Config} (m : ArchState c) : ArchState c := { m with status := .halted }

end Sys2Proof.Machine
end

