-- ==== Sys2Proof/WellFormed.lean ====
section
/-! DEFINITION. Which instruction terms the hardware has: every register field names one of the eight registers. -/

namespace Sys2Proof

/-- "Only v in 0..7 names a register" (R83, R24). The high bits are not ignored: 0x08 does not name R0. -/
def namesRegister (v : Byte) : Bool := decide (v < 8#8)

/-- A well-formed instruction: each register field names a register (R83). The immediate is unrestricted (R89). -/
def Instr.wf (i : Instr) : Bool := i.regFields.all namesRegister

end Sys2Proof
end

