-- ==== Sys2Proof/Decode.lean ====
section
/-! DEFINITION. The decoder and the encoder (30_encoding.md; 40_cycle.md section 2), both read from one opcode table. -/

namespace Sys2Proof

/-- The four instruction formats (R81). -/
inductive Format where
  | Z
  | R
  | RI
  | RR
  deriving DecidableEq, Repr

/-- How many operand bytes follow the opcode byte (R81): `n(op)` of R111. -/
def Format.operandBytes : Format → Nat
  | .Z => 0
  | .R => 1
  | .RI => 2
  | .RR => 2

/-- The opcode map (R86), one row per opcode: its byte and its format. The one encoding table of the model: the
decoder searches it and the encoder reads it. -/
def Opcode.row : Opcode → Byte × Format
  | .nop => (0x00, .Z)
  | .hlt => (0x01, .Z)
  | .jmp => (0x03, .R)
  | .ret => (0x11, .Z)
  | .push => (0x45, .R)
  | .pop => (0x46, .R)
  | .prn => (0x47, .R)
  | .call => (0x50, .R)
  | .ldi => (0x82, .RI)
  | .mul => (0xA2, .RR)
  | .div => (0xA3, .RR)

/-- The opcode byte (R86). -/
def Opcode.byte (op : Opcode) : Byte := op.row.1

/-- The format (R81, R86). -/
def Opcode.format (op : Opcode) : Format := op.row.2

/-- All opcodes, in the spec's order: the map is closed (R2, R86). -/
def opcodes : List Opcode := [.nop, .hlt, .jmp, .ret, .push, .pop, .prn, .call, .ldi, .mul, .div]

/-- The opcode of a byte, none if the byte is illegal (R82, R87). The whole byte is compared, never bit fields (R88). -/
def opcodeOfByte (b : Byte) : Option Opcode := opcodes.find? (fun op => decide (op.byte = b))

/-- Why bytes do not decode (40_cycle.md section 2). The machine turns each into the fault of the same name. -/
inductive DecodeError where
  /-- the opcode byte is not in the opcode map; carries the byte (R114) -/
  | invalidInstruction (op : Byte)
  /-- an operand byte lies at or beyond the end of the code (R116) -/
  | truncatedInstruction
  /-- a register field is 8 or more; carries the first such field (R117) -/
  | registerOutOfRange (v : Byte)
  deriving DecidableEq, Repr

/-- The instruction of an opcode and its operand bytes, the first at address a+1, the second at a+2 (R81, R85).
A byte the format does not have is not looked at. -/
def buildInstr (op : Opcode) (o1 o2 : Byte) : Instr :=
  match op with
  | .nop => .nop
  | .hlt => .hlt
  | .jmp => .jmp o1
  | .ret => .ret
  | .push => .push o1
  | .pop => .pop o1
  | .prn => .prn o1
  | .call => .call o1
  | .ldi => .ldi o1 o2
  | .mul => .mul o1 o2
  | .div => .div o1 o2

/-- The first register field that names no register, in operand order (R117, R202: "ra before rb"). -/
def Instr.firstBadField (i : Instr) : Option Byte := i.regFields.find? (fun v => !namesRegister v)

/-- R117: all operand bytes are there; the register fields are checked in operand order. -/
def checkFields (i : Instr) : Except DecodeError Instr :=
  match i.firstBadField with
  | none => .ok i
  | some v => .error (.registerOutOfRange v)

/-- Decoding, in the order of R111: the opcode byte (R114), then the operand bytes (R115, R116), then the register
fields (R117). `bs` is the code from the opcode byte on, as far as the code reaches; bytes after the instruction are
not looked at (R82). On no byte at all it answers `truncatedInstruction`, which the cycle never asks for, since the
end-of-code check comes first (R112). -/
def decode (bs : List Byte) : Except DecodeError Instr :=
  match bs with
  | [] => .error .truncatedInstruction
  | op :: operands =>
    match opcodeOfByte op with
    | none => .error (.invalidInstruction op)
    | some o =>
      if operands.length < o.format.operandBytes then .error .truncatedInstruction
      else checkFields (buildInstr o (operands.getD 0 0) (operands.getD 1 0))

/-- How many operand bytes an instruction has: `n(op)` of R111. -/
def Instr.operandBytes (i : Instr) : Nat := i.opcode.format.operandBytes

/-- The instruction's length in bytes (R80). -/
def Instr.size (i : Instr) : Nat := 1 + i.operandBytes

/-- The operand bytes of an instruction in written order (R81, R91). -/
def Instr.operands : Instr → List Byte
  | .nop => []
  | .hlt => []
  | .jmp r => [r]
  | .ret => []
  | .push r => [r]
  | .pop r => [r]
  | .prn r => [r]
  | .call r => [r]
  | .ldi r imm => [r, imm]
  | .mul ra rb => [ra, rb]
  | .div ra rb => [ra, rb]

/-- The bytes of an instruction: "opcode first, operands in written order" (R91). -/
def encode (i : Instr) : List Byte := i.opcode.byte :: i.operands

/-- The length in bytes of the longest instruction (R80). -/
def maxInstrBytes : Nat := 3

/-- The bytes of an instruction word numbered as spec/opcode_table.json numbers its bits: bit 0 is the least
significant bit of the first byte, the second byte is bits 15..8, the third bits 23..16. The bits from `nbits` up are
zero. -/
def tableBytes (nbits w : Nat) : List Byte :=
  let v := w % 2 ^ nbits
  [BitVec.ofNat 8 v, BitVec.ofNat 8 (v / 2 ^ 8), BitVec.ofNat 8 (v / 2 ^ 16)]

/-- What the decoder reads from a table word laid out as the hardware stores it; none where it refuses. -/
def decodeTableWord (nbits w : Nat) : Option Instr :=
  match decode (tableBytes nbits w) with
  | .ok i => some i
  | .error _ => none

end Sys2Proof
end

