-- ==== Sys2Proof/Machine/Operands.lean ====
section
/-! DEFINITION. Operand forms and width conversions (30_encoding.md section 2, 20_memory.md R56). -/

namespace Sys2Proof.Machine

/-- `zext_W(b)` (R12, R84): a byte widened with zero bits above. -/
def zextWord {w : Nat} (b : Byte) : Word w := BitVec.setWidth w b

/-- `trunc_8(v)` (R12): the low 8 bits. -/
def truncByte {w : Nat} (v : Word w) : Byte := BitVec.setWidth 8 v

/-- The register a field names (R83); a field of 8 or more raises RegisterOutOfRange with the field (R117, R204). -/
def regOfField (v : Byte) : Except Raise (Fin 8) :=
  if h : v.toNat < 8 then .ok ⟨v.toNat, h⟩ else .error { kind := .registerOutOfRange, info := v }

/-- The fault of a decode error, with its FAULT_INFO (R201). -/
def raiseOfDecodeError : DecodeError → Raise
  | .invalidInstruction op => { kind := .invalidInstruction, info := op }
  | .truncatedInstruction => { kind := .truncatedInstruction, info := 0 }
  | .registerOutOfRange v => { kind := .registerOutOfRange, info := v }

end Sys2Proof.Machine
end

