-- ==== Sys2Proof/Machine/Ops.lean ====
section
/-! DEFINITION. The operations every meaning is written over: code memory, registers, the byte stack, the output port,
taking a fault, and the part of a step that surrounds an instruction's rule (40_cycle.md). -/

namespace Sys2Proof.Machine

/-! ### Code memory (20_memory.md) -/

/-- What an address that is not listed reads as. Below CODE_LEN it is a byte of the image whose value is 0
(log entry 5); at or beyond CODE_LEN nothing is read (R52). -/
def Memory.unlisted : Byte := 0

/-- The byte at an address (R52). -/
def Memory.read (mem : Memory) (a : Nat) : Byte :=
  match mem with
  | [] => Memory.unlisted
  | (k, v) :: rest => if k = a then v else Memory.read rest a

/-- Replace the byte at an address, keeping the canonical form. No instruction does this (R53): it serves the host's
code load. -/
def Memory.write (mem : Memory) (a : Nat) (b : Byte) : Memory :=
  match mem with
  | [] => if b = Memory.unlisted then [] else [(a, b)]
  | (k, v) :: rest =>
    if a < k then (if b = Memory.unlisted then (k, v) :: rest else (a, b) :: (k, v) :: rest)
    else if a = k then (if b = Memory.unlisted then rest else (a, b) :: rest)
    else (k, v) :: Memory.write rest a b

/-- Write bytes at consecutive addresses from `a` on. -/
def Memory.writeBytes (mem : Memory) (a : Nat) (bs : List Byte) : Memory :=
  match bs with
  | [] => mem
  | b :: rest => Memory.writeBytes (Memory.write mem a b) (a + 1) rest

/-- The memory that holds the bytes `bs` at addresses `a`, `a + 1`, ... and nothing else. -/
def Memory.ofBytes (a : Nat) (bs : List Byte) : Memory :=
  match bs with
  | [] => []
  | b :: rest => if b = Memory.unlisted then Memory.ofBytes (a + 1) rest else (a, b) :: Memory.ofBytes (a + 1) rest

/-- The canonical form: addresses strictly rising, no entry equal to what an unlisted address reads as. -/
def Memory.wf (mem : Memory) : Bool :=
  decide (mem.Pairwise (fun p q => p.1 < q.1)) && mem.all (fun p => decide (p.2 ≠ Memory.unlisted))

/-! ### Registers (10_state.md R22) -/

/-- `x[k]`. -/
def ArchState.reg {c : Config} (m : ArchState c) (k : Fin 8) : c.Word := m.x.get k

/-- `x[k] <- v`. -/
def ArchState.setReg {c : Config} (m : ArchState c) (k : Fin 8) (v : c.Word) : ArchState c :=
  { m with x := m.x.set k.val v k.isLt }

/-- `ip <- target`. -/
def ArchState.setIp {c : Config} (m : ArchState c) (target : c.Word) : ArchState c := { m with ip := target }

/-! ### The byte stack (20_memory.md section 4) -/

/-- STACK_CAP is finite and `depth = STACK_CAP` (R60). -/
def ArchState.stackFull {c : Config} (m : ArchState c) : Bool :=
  match c.stackCap with
  | .unbounded => false
  | .entries n => decide (m.stack.length = n)

/-- `StackPush(b)` (R60). -/
def ArchState.stackPush {c : Config} (m : ArchState c) (b : Byte) : Except Raise (ArchState c) :=
  if m.stackFull then .error { kind := .stackOverflow, info := 0 } else .ok { m with stack := b :: m.stack }

/-- `StackPop()` (R61): the removed top byte and the state without it. -/
def ArchState.stackPop {c : Config} (m : ArchState c) : Except Raise (Byte × ArchState c) :=
  match m.stack with
  | [] => .error { kind := .stackUnderflow, info := 0 }
  | b :: rest => .ok (b, { m with stack := rest })

/-! ### The output port (10_state.md R33, R36) -/

/-- `Emit(v); out <- out ++ [v]` (R142). -/
def ArchState.emit {c : Config} (m : ArchState c) (v : c.Word) : ArchState c := { m with out := m.out ++ [v] }

/-! ### Taking a fault (60_exceptions.md R205) -/

/-- Fault entry. `m` is the state the step began in, so every write of the step is discarded and ip = a, the address
of the instruction's opcode byte; then status and the fault record are written. There is no return from a fault (R206):
only the host's reset or load leaves Faulted (Machine/HostPort.lean). -/
def ArchState.enterFault {c : Config} (m : ArchState c) (f : Raise) : ArchState c :=
  { m with status := .faulted, fault := some { kind := f.kind, addr := m.ip, info := f.info } }

/-! ### Execute and advance (40_cycle.md section 3) -/

/-- The final advance: IpOverflow if ip = 2^W - 1 (R121), else ip <- ip + 1 (R120). -/
def ArchState.advance {c : Config} (m : ArchState c) : Except Raise (ArchState c) :=
  if m.ip = Word.top c.bits then .error { kind := .ipOverflow, info := 0 } else .ok (m.setIp (m.ip + 1))

/-- The rest of a step once an instruction with `n` operand bytes is decoded (R111 from R118 on): ip moves to the
instruction's last byte e = a + n (R115), the instruction's rule runs on that working copy (R14, R119), the advance
follows (R120), and a raise in either becomes the fault entry on the state the step began in (R205). `m` is that
state: its ip is a. -/
def ArchState.runRule {c : Config} (m : ArchState c) (n : Nat)
    (rule : ArchState c → Except Raise (ArchState c)) : ArchState c :=
  match rule (m.setIp (m.ip + BitVec.ofNat c.bits n)) with
  | .error f => m.enterFault f
  | .ok u =>
    match u.advance with
    | .error f => m.enterFault f
    | .ok t => t

/-- The outcome of an instruction: the next state of the same machine. -/
def State.runRule (s : State) (n : Nat)
    (rule : ArchState s.cfg → Except Raise (ArchState s.cfg)) : Host.Outcome State Fault Refusal :=
  .next { cfg := s.cfg, arch := s.arch.runRule n rule }

/-! ### Fetch and decode (40_cycle.md R112 to R117) -/

/-- Up to `n` code bytes from address `a` on, as far as the code reaches (`CodeRead`, R52). -/
def ArchState.codeFrom {c : Config} (m : ArchState c) (a : Nat) (n : Nat) : List Byte :=
  match n with
  | 0 => []
  | k + 1 => if a < m.codeLen.toNat then Memory.read m.code a :: m.codeFrom (a + 1) k else []

/-- What the core does next. -/
inductive Action where
  /-- no step is performed (R124) -/
  | stay
  /-- the run ends at the end of the code (R112) -/
  | endOfCode
  /-- decode raises a fault (R114, R116, R117) -/
  | raise (f : Raise)
  /-- an instruction is executed (R119) -/
  | run (i : Instr)
  deriving DecidableEq, Repr

/-- The first part of a step, in the order of R111: only a Running core steps (R124), then the end-of-code check
(R112), then fetch and decode (R113 to R117). -/
def ArchState.action {c : Config} (m : ArchState c) : Action :=
  if m.status = .running then
    if m.ip.toNat < m.codeLen.toNat then
      match decode (m.codeFrom m.ip.toNat maxInstrBytes) with
      | .ok i => .run i
      | .error e => .raise (raiseOfDecodeError e)
    else .endOfCode
  else .stay

/-! ### Placing an instruction where the next step fetches -/

/-- Put bytes into code memory at ip and make the core Running with the code reaching over them, at most to the
longest code there can be (R10). A Running core has no fault record, so the record is cleared (log entry 6). -/
def ArchState.placeAtIp {c : Config} (m : ArchState c) (bs : List Byte) : ArchState c :=
  { m with
    code := Memory.writeBytes m.code m.ip.toNat bs
    codeLen := BitVec.ofNat c.bits (min (max m.codeLen.toNat (m.ip.toNat + bs.length)) (2 ^ c.bits - 1))
    status := .running
    fault := none }

end Sys2Proof.Machine
end

