-- ==== Sys2Proof/Machine/Alu.lean ====
section
/-! DEFINITION. Arithmetic: MUL and DIV (44_alu.md). Operands are taken as natural numbers, the result is computed
exactly and then narrowed to W bits (R12). -/

namespace Sys2Proof.Machine

/-- R170, R173: the exact product reduced modulo 2^W. -/
def mulWord {w : Nat} (x y : Word w) : Word w := BitVec.ofNat w (x.toNat * y.toNat)

/-- R171, R174: the quotient rounded down. Its divisor is nonzero where it is used. -/
def divWord {w : Nat} (x y : Word w) : Word w := BitVec.ofNat w (x.toNat / y.toNat)

/-- R170: `x[ra] <- x[ra] * x[rb] mod 2^W`. -/
def mulRule {c : Config} (ra rb : Byte) (m : ArchState c) : Except Raise (ArchState c) := do
  let a ← regOfField ra
  let b ← regOfField rb
  .ok (m.setReg a (mulWord (m.reg a) (m.reg b)))

/-- R171: `if x[rb] = 0: raise Fault(DivideByZero, 0); x[ra] <- x[ra] div x[rb]`. -/
def divRule {c : Config} (ra rb : Byte) (m : ArchState c) : Except Raise (ArchState c) := do
  let a ← regOfField ra
  let b ← regOfField rb
  if m.reg b = 0 then .error { kind := .divideByZero, info := 0 }
  else .ok (m.setReg a (divWord (m.reg a) (m.reg b)))

/-- MUL (R170) -/
def execMul (ra rb : Byte) (s : State) : Host.Outcome State Fault Refusal := s.runRule 2 (mulRule ra rb)

/-- DIV (R171) -/
def execDiv (ra rb : Byte) (s : State) : Host.Outcome State Fault Refusal := s.runRule 2 (divRule ra rb)

end Sys2Proof.Machine
end

