-- ==== Sys2Proof/Machine/ControlTransfer.lean ====
section
/-! DEFINITION. Control transfer: JMP, CALL, RET (43_control_transfer.md). Each writes the landing address minus one
to ip; the advance adds the one (R163). At execute ip = e, the address of the instruction's last byte. -/

namespace Sys2Proof.Machine

/-- R160: `ip <- x[r]`. -/
def jmpRule {c : Config} (r : Byte) (m : ArchState c) : Except Raise (ArchState c) := do
  let k ← regOfField r
  .ok (m.setIp (m.reg k))

/-- R161: `t <- x[r]; StackPush(trunc_8(ip + 1)); ip <- t`. -/
def callRule {c : Config} (r : Byte) (m : ArchState c) : Except Raise (ArchState c) := do
  let k ← regOfField r
  let u ← m.stackPush (truncByte (m.ip + 1))
  .ok (u.setIp (m.reg k))

/-- R162: `b <- StackPop(); ip <- zext_W(b)`. -/
def retRule {c : Config} (m : ArchState c) : Except Raise (ArchState c) := do
  let (b, u) ← m.stackPop
  .ok (u.setIp (zextWord b))

/-- JMP (R160) -/
def execJmp (r : Byte) (s : State) : Host.Outcome State Fault Refusal := s.runRule 1 (jmpRule r)

/-- CALL (R161) -/
def execCall (r : Byte) (s : State) : Host.Outcome State Fault Refusal := s.runRule 1 (callRule r)

/-- RET (R162) -/
def execRet (s : State) : Host.Outcome State Fault Refusal := s.runRule 0 retRule

end Sys2Proof.Machine
end

