-- ==== Sys2Proof/Machine/DataMovement.lean ====
section
/-! DEFINITION. Data movement and stack instructions: LDI, PUSH, POP (42_data_movement.md). -/

namespace Sys2Proof.Machine

/-- R150: `x[r] <- zext_W(imm)`. -/
def ldiRule {c : Config} (r imm : Byte) (m : ArchState c) : Except Raise (ArchState c) := do
  let k ← regOfField r
  .ok (m.setReg k (zextWord imm))

/-- R151: `StackPush(trunc_8(x[r]))`. -/
def pushRule {c : Config} (r : Byte) (m : ArchState c) : Except Raise (ArchState c) := do
  let k ← regOfField r
  m.stackPush (truncByte (m.reg k))

/-- R152: `b <- StackPop(); x[r] <- zext_W(b)`. -/
def popRule {c : Config} (r : Byte) (m : ArchState c) : Except Raise (ArchState c) := do
  let k ← regOfField r
  let (b, u) ← m.stackPop
  .ok (u.setReg k (zextWord b))

/-- LDI (R150) -/
def execLdi (r imm : Byte) (s : State) : Host.Outcome State Fault Refusal := s.runRule 2 (ldiRule r imm)

/-- PUSH (R151) -/
def execPush (r : Byte) (s : State) : Host.Outcome State Fault Refusal := s.runRule 1 (pushRule r)

/-- POP (R152) -/
def execPop (r : Byte) (s : State) : Host.Outcome State Fault Refusal := s.runRule 1 (popRule r)

end Sys2Proof.Machine
end

