-- ==== Sys2Proof/Machine/System.lean ====
section
/-! DEFINITION. System instructions: NOP, HLT, PRN (41_system.md). Each rule is the execute part alone; `runRule`
surrounds it with the decode's movement of ip, the advance and the fault entry. -/

namespace Sys2Proof.Machine

/-- R140: nothing. -/
def nopRule {c : Config} (m : ArchState c) : Except Raise (ArchState c) := .ok m

/-- R141: `status <- Halted`. The advance still follows (R120). -/
def hltRule {c : Config} (m : ArchState c) : Except Raise (ArchState c) := .ok m.halt

/-- R142: `Emit(x[r]); out <- out ++ [x[r]]`, the whole word. -/
def prnRule {c : Config} (r : Byte) (m : ArchState c) : Except Raise (ArchState c) := do
  let k ← regOfField r
  .ok (m.emit (m.reg k))

/-- NOP (R140) -/
def execNop (s : State) : Host.Outcome State Fault Refusal := s.runRule 0 nopRule

/-- HLT (R141) -/
def execHlt (s : State) : Host.Outcome State Fault Refusal := s.runRule 0 hltRule

/-- PRN (R142) -/
def execPrn (r : Byte) (s : State) : Host.Outcome State Fault Refusal := s.runRule 1 (prnRule r)

end Sys2Proof.Machine
end

