-- ==== Sys2Proof/Machine/Step.lean ====
section
/-! DEFINITION. One step of the machine (40_cycle.md R111, R124), and the placing of one instruction where the next
step fetches it. -/

namespace Sys2Proof.Machine

/-- One step (R111). In a status other than Running the core performs no step and nothing changes (R124), which is
the answer `next s` (log entry 3). -/
def step (s : State) : Host.Outcome State Fault Refusal :=
  match s.arch.action with
  | .stay => .next s
  | .endOfCode => .next { cfg := s.cfg, arch := s.arch.halt }
  | .raise f => .next { cfg := s.cfg, arch := s.arch.enterFault f }
  | .run i => exec i s

/-- `s` with the instruction word `w` (numbered as spec/opcode_table.json numbers it, the bits from `nbits` up zero)
stored at ip, the code reaching over it and the core Running, so that the very next step runs it (log entry 6). -/
def State.withFetchWord (s : State) (nbits w : Nat) : State :=
  { cfg := s.cfg, arch := s.arch.placeAtIp (tableBytes nbits w) }

end Sys2Proof.Machine
end

