-- ==== Sys2Proof/Machine/HostPort.lean ====
section
/-! DEFINITION. The host's side of the core: the abstract transactions of 10_state.md section 8. They are not part of
`step`: the host performs them between steps (R124), and a run takes no input (R123). -/

namespace Sys2Proof.Machine

/-- Run command (R37): Idle becomes Running; in Running, Halted or Faulted it has no effect. -/
def ArchState.runCommand {c : Config} (m : ArchState c) : ArchState c :=
  if m.status = .idle then { m with status := .running } else m

/-- Reset input (R35, R230): every piece of state except code memory takes its reset value. -/
def ArchState.resetInput {c : Config} (m : ArchState c) : ArchState c :=
  { ArchState.reset c with codeLen := m.codeLen, code := m.code }

/-- Why an image is no code (R73, R75). The spec has one error, InvalidArgumentValue, "identifying the parse failure";
what identifies it is the model's choice (log entry 9). -/
inductive BadImage where
  /-- the line of this number, counted from 0 over all lines, is retained and has a bad digit (R73) -/
  | badLine (line : Nat)
  /-- more than 2^W - 1 bytes (R75) -/
  | tooLong
  deriving DecidableEq, Repr

/-- Why a load was not performed. The core is unchanged (R34 "all-or-nothing", R73). -/
inductive LoadError where
  /-- InvalidArgumentValue: the host loader's error, never a fault of the core (R201) -/
  | invalidArgumentValue (why : BadImage)
  /-- the core is Running, and "During a run code memory cannot be written" (R34; log entry 7) -/
  | coreRunning
  deriving DecidableEq, Repr

/-- Code load (R34, R74, R75): while the core is not Running, replaces the whole code memory and puts the core in its
reset state. -/
def ArchState.loadCode {c : Config} (m : ArchState c) (bytes : List Byte) : Except LoadError (ArchState c) :=
  if m.status = .running then .error .coreRunning
  else if 2 ^ c.bits - 1 < bytes.length then .error (.invalidArgumentValue .tooLong)
  else .ok { ArchState.reset c with
    codeLen := BitVec.ofNat c.bits bytes.length
    code := Memory.ofBytes 0 bytes }

/-- Boot (R233): the host loads the code into a core in its reset state and issues the run command. -/
def State.boot (c : Config) (bytes : List Byte) : Except LoadError State :=
  match (ArchState.reset c).loadCode bytes with
  | .error e => .error e
  | .ok m => .ok { cfg := c, arch := m.runCommand }

/-- Status output (R38): the status code, and the fault record (FAULT_CODE, FAULT_ADDR, FAULT_INFO) when Faulted. -/
def ArchState.statusOutput {c : Config} (m : ArchState c) : Nat × Option (Nat × c.Word × Byte) :=
  (m.status.code, if m.status = .faulted then m.fault.map (fun f => (f.kind.code, f.addr, f.info)) else none)

/-- The decimal digit character of a number below 10. -/
def digitChar (d : Nat) : Char := Char.ofNat (48 + d)

/-- The decimal digits of `n` without leading zeros, put before `acc`; `fuel` bounds their number. -/
def decimalAux (fuel n : Nat) (acc : List Char) : List Char :=
  match fuel with
  | 0 => acc
  | k + 1 => if n < 10 then digitChar n :: acc else decimalAux k (n / 10) (digitChar (n % 10) :: acc)

/-- Unsigned decimal digits with no leading zeros; 0 is `0` (R76). Twenty digits hold every value below 2^64. -/
def decimal (n : Nat) : List Char := decimalAux 20 n []

/-- What the host writes for one delivered value (R76): its digits and one newline. -/
def renderValue {w : Nat} (v : Word w) : List Char := decimal v.toNat ++ ['\n']

/-- What the host has written for the output trace: each value in delivery order (R36, R76). -/
def ArchState.render {c : Config} (m : ArchState c) : List Char := m.out.flatMap renderValue

end Sys2Proof.Machine
end

