-- ==== Sys2Proof/Machine/Assembler.lean ====
section
/-! DEFINITION. Assembly syntax (30_encoding.md section 4, R90 to R92): the written form of an instruction, and
reading statements back. It is no part of the core. Hexadecimal immediates and labels, which the spec resolves by
hand (R90), are not read (log entry 10). -/

namespace Sys2Proof.Machine

/-- The mnemonic (R86, R90). -/
def Opcode.mnemonic : Opcode → List Char
  | .nop => ['N', 'O', 'P']
  | .hlt => ['H', 'L', 'T']
  | .jmp => ['J', 'M', 'P']
  | .ret => ['R', 'E', 'T']
  | .push => ['P', 'U', 'S', 'H']
  | .pop => ['P', 'O', 'P']
  | .prn => ['P', 'R', 'N']
  | .call => ['C', 'A', 'L', 'L']
  | .ldi => ['L', 'D', 'I']
  | .mul => ['M', 'U', 'L']
  | .div => ['D', 'I', 'V']

/-- A register is written `R` followed by its index (R90). -/
def regName (v : Byte) : List Char := 'R' :: decimal v.toNat

/-- The written operands: separated by a comma, an immediate in decimal (R90). -/
def operandText : Instr → List Char
  | .nop => []
  | .hlt => []
  | .jmp r => ' ' :: regName r
  | .ret => []
  | .push r => ' ' :: regName r
  | .pop r => ' ' :: regName r
  | .prn r => ' ' :: regName r
  | .call r => ' ' :: regName r
  | .ldi r imm => ' ' :: regName r ++ ',' :: decimal imm.toNat
  | .mul ra rb => ' ' :: regName ra ++ ',' :: regName rb
  | .div ra rb => ' ' :: regName ra ++ ',' :: regName rb

/-- The assembly statement of an instruction (R90). -/
def asmText (i : Instr) : List Char := Opcode.mnemonic i.opcode ++ operandText i

/-- Split a text at the characters `isSep` names; always at least one part. -/
def splitChars (isSep : Char → Bool) (text : List Char) : List (List Char) :=
  match text with
  | [] => [[]]
  | ch :: rest =>
    if isSep ch then [] :: splitChars isSep rest
    else
      match splitChars isSep rest with
      | [] => [[ch]]
      | part :: more => (ch :: part) :: more

/-- The value of decimal digits continuing from `acc`, none on any other character. -/
def decimalValue (acc : Nat) (digits : List Char) : Option Nat :=
  match digits with
  | [] => some acc
  | d :: rest => if '0' ≤ d ∧ d ≤ '9' then decimalValue (10 * acc + (d.toNat - 48)) rest else none

/-- A decimal number 0 to 255 (R90). -/
def parseImm (text : List Char) : Option Byte :=
  match text with
  | [] => none
  | _ :: _ =>
    match decimalValue 0 text with
    | none => none
    | some v => if v ≤ 255 then some (BitVec.ofNat 8 v) else none

/-- `R` followed by an index 0 to 7, one digit (R90). -/
def parseReg (text : List Char) : Option Byte :=
  match text with
  | ['R', d] => if '0' ≤ d ∧ d ≤ '7' then some (BitVec.ofNat 8 (d.toNat - 48)) else none
  | _ => none

/-- The opcode a mnemonic names. -/
def opcodeOfMnemonic (text : List Char) : Option Opcode := opcodes.find? (fun op => decide (Opcode.mnemonic op = text))

/-- One operand of a statement; the second operand of format RI is the immediate (R81, R90). -/
def parseOperands (f : Format) (parts : List (List Char)) : Option (Byte × Byte) :=
  match f, parts with
  | .Z, [] => some (0, 0)
  | .R, [a] => (parseReg a).map (fun r => (r, 0))
  | .RI, [a, b] =>
    match parseReg a, parseImm b with
    | some r, some v => some (r, v)
    | _, _ => none
  | .RR, [a, b] =>
    match parseReg a, parseReg b with
    | some r, some v => some (r, v)
    | _, _ => none
  | _, _ => none

/-- The words of a statement: its parts between blanks (log entry 10). -/
def statementWords (text : List Char) : List (List Char) :=
  (splitChars (fun ch => decide (ch = ' ' ∨ ch = '\t' ∨ ch = '\r')) text).filter (fun w => decide (w ≠ []))

/-- One statement: a mnemonic, then its operands separated by a comma (R90). -/
def parseStatement (text : List Char) : Option Instr :=
  match statementWords text with
  | [name] =>
    match opcodeOfMnemonic name with
    | none => none
    | some op => (parseOperands op.format []).map (fun o => buildInstr op o.1 o.2)
  | [name, operands] =>
    match opcodeOfMnemonic name with
    | none => none
    | some op => (parseOperands op.format (splitChars (fun ch => decide (ch = ',')) operands)).map
        (fun o => buildInstr op o.1 o.2)
  | _ => none

/-- The instructions of a list of statements; an empty statement is none. -/
def parseStatements (parts : List (List Char)) : Option (List Instr) :=
  match parts with
  | [] => some []
  | p :: rest =>
    if statementWords p = [] then parseStatements rest
    else
      match parseStatement p, parseStatements rest with
      | some i, some is => some (i :: is)
      | _, _ => none

/-- The code of an assembly text: statements separated by `;` or new lines (R90), each encoded as exactly the bytes
of its format (R91). None if a statement is not of R90's forms. -/
def assemble (text : List Char) : Option (List Byte) :=
  (parseStatements (splitChars (fun ch => decide (ch = ';' ∨ ch = '\n')) text)).map (fun is => is.flatMap encode)

end Sys2Proof.Machine
end

