-- ==== Sys2Proof/Machine/Loader.lean ====
section
/-! DEFINITION. The program image format (20_memory.md section 6, R70 to R75): how program text becomes code bytes.
The text is the list of its UTF-8 bytes (log entry 9). -/

namespace Sys2Proof.Machine

/-- Line feed (R70). -/
def charLF : Byte := 0x0A
/-- Carriage return (R70). -/
def charCR : Byte := 0x0D
/-- `#` (R71). -/
def charHash : Byte := 0x23
/-- `0` (R70). -/
def charZero : Byte := 0x30
/-- `1` (R70). -/
def charOne : Byte := 0x31

/-- Split at each line feed (R70): always at least one line. -/
def splitLines (text : List Byte) : List (List Byte) :=
  match text with
  | [] => [[]]
  | b :: rest =>
    if b = charLF then [] :: splitLines rest
    else
      match splitLines rest with
      | [] => [[b]]
      | line :: more => (b :: line) :: more

/-- Remove one carriage return at the end of a line (R70). -/
def stripCR (line : List Byte) : List Byte :=
  if line.getLast? = some charCR then line.dropLast else line

/-- A line that contributes no byte (R71): it begins with `#`, or it is shorter than 8 bytes. -/
def skipped (line : List Byte) : Bool := decide (line.head? = some charHash) || decide (line.length < 8)

/-- The value of a digit character, none if it is neither `0` nor `1` (R72, R73). -/
def binDigit (b : Byte) : Option Nat := if b = charZero then some 0 else if b = charOne then some 1 else none

/-- The base-2 value of digit characters, the first the most significant (R72), continuing from `acc`. -/
def binValue (acc : Nat) (digits : List Byte) : Option Nat :=
  match digits with
  | [] => some acc
  | d :: rest =>
    match binDigit d with
    | none => none
    | some v => binValue (2 * acc + v) rest

/-- The byte of a retained line: its 8 leading characters; what follows them is discarded (R72). -/
def lineByte (line : List Byte) : Option Byte := (binValue 0 (line.take 8)).map (BitVec.ofNat 8)

/-- The bytes of the lines in order, `n` being the number of the first (R72, R73: one bad line fails the whole). -/
def linesBytes (n : Nat) (lines : List (List Byte)) : Except LoadError (List Byte) :=
  match lines with
  | [] => .ok []
  | raw :: rest =>
    let line := stripCR raw
    if skipped line then linesBytes (n + 1) rest
    else
      match lineByte line with
      | none => .error (.invalidArgumentValue (.badLine n))
      | some b =>
        match linesBytes (n + 1) rest with
        | .error e => .error e
        | .ok bs => .ok (b :: bs)

/-- The code bytes of a program text (R70 to R73). -/
def parseImage (text : List Byte) : Except LoadError (List Byte) := linesBytes 0 (splitLines text)

/-- Program load (R70 to R75): parse, then load. On an error the core keeps its code and status (R73). -/
def ArchState.loadImage {c : Config} (m : ArchState c) (text : List Byte) : Except LoadError (ArchState c) :=
  match parseImage text with
  | .error e => .error e
  | .ok bytes => m.loadCode bytes

/-- The image line of a byte (R92): 8 digit characters, bit 7 first, and a line feed. -/
def imageLine (b : Byte) : List Byte :=
  ([7, 6, 5, 4, 3, 2, 1, 0].map (fun k => if b.getLsbD k then charOne else charZero)) ++ [charLF]

/-- The program image of code bytes: one line per byte (R92). -/
def imageOf (bytes : List Byte) : List Byte := bytes.flatMap imageLine

end Sys2Proof.Machine
end

