-- ==== Sys2Proof/Safety.lean ====
section
/-! DEFINITION. What a legal state is, which states the host and the core can reach, and which runs are free of
faults. -/

namespace Sys2Proof.Machine

/-! ### Words the statements are written with. They are of their own, not the model's operations, so that a statement
keeps its meaning whatever an operation's body says. -/

/-- The code byte `k` past ip, none at or beyond CODE_LEN (R51, R52). -/
def ArchState.byteAt {c : Config} (m : ArchState c) (k : Nat) : Option Byte :=
  if m.ip.toNat + k < m.codeLen.toNat then some (Memory.read m.code (m.ip.toNat + k)) else none

/-- The bytes `bs` stand in the code from ip on. -/
def ArchState.holdsAtIp {c : Config} (m : ArchState c) (bs : List Byte) : Prop :=
  ∀ k, ∀ h : k < bs.length, m.byteAt k = some bs[k]

/-- The state after a fault raised in the step that began in `m` (R205): nothing of the step remains, so ip is the
address of the instruction's opcode byte; status is Faulted and the record holds the kind, that address and the info. -/
abbrev ArchState.inFault {c : Config} (m : ArchState c) (kind : Fault) (info : Byte) : ArchState c :=
  { m with status := .faulted, fault := some { kind := kind, addr := m.ip, info := info } }

/-- The decode faults of a format R instruction whose opcode byte is `op` (R116, R117), in the state `m`. -/
def DecodeFaultsR {c : Config} (op : Byte) (m : ArchState c) : Prop :=
  m.status = .running → m.byteAt 0 = some op →
    (m.byteAt 1 = none → step ⟨c, m⟩ = .next ⟨c, m.inFault .truncatedInstruction 0⟩) ∧
    (∀ r : Byte, m.byteAt 1 = some r → 8 ≤ r.toNat → step ⟨c, m⟩ = .next ⟨c, m.inFault .registerOutOfRange r⟩)

/-- The decode faults of a format RI instruction (R116, R117): the immediate is not checked. -/
def DecodeFaultsRI {c : Config} (op : Byte) (m : ArchState c) : Prop :=
  m.status = .running → m.byteAt 0 = some op →
    (m.byteAt 1 = none ∨ m.byteAt 2 = none → step ⟨c, m⟩ = .next ⟨c, m.inFault .truncatedInstruction 0⟩) ∧
    (∀ r imm : Byte, m.byteAt 1 = some r → m.byteAt 2 = some imm → 8 ≤ r.toNat →
      step ⟨c, m⟩ = .next ⟨c, m.inFault .registerOutOfRange r⟩)

/-- The decode faults of a format RR instruction (R116, R117): ra is checked before rb (R202). -/
def DecodeFaultsRR {c : Config} (op : Byte) (m : ArchState c) : Prop :=
  m.status = .running → m.byteAt 0 = some op →
    (m.byteAt 1 = none ∨ m.byteAt 2 = none → step ⟨c, m⟩ = .next ⟨c, m.inFault .truncatedInstruction 0⟩) ∧
    (∀ ra rb : Byte, m.byteAt 1 = some ra → m.byteAt 2 = some rb → 8 ≤ ra.toNat →
      step ⟨c, m⟩ = .next ⟨c, m.inFault .registerOutOfRange ra⟩) ∧
    (∀ ra rb : Byte, m.byteAt 1 = some ra → m.byteAt 2 = some rb → ra.toNat < 8 → 8 ≤ rb.toNat →
      step ⟨c, m⟩ = .next ⟨c, m.inFault .registerOutOfRange rb⟩)

/-! ### Legal states -/

/-- The FAULT_INFO a kind records (R201): the illegal opcode byte, the register field byte, or 0. -/
def Fault.infoLegal : Fault → Byte → Bool
  | .invalidInstruction, b => (opcodeOfByte b).isNone
  | .registerOutOfRange, b => !namesRegister b
  | .stackUnderflow, b => decide (b = 0)
  | .divideByZero, b => decide (b = 0)
  | .truncatedInstruction, b => decide (b = 0)
  | .ipOverflow, b => decide (b = 0)
  | .stackOverflow, b => decide (b = 0)

/-- The invariant of the machine: what every state that a host and a core can bring about satisfies. -/
structure ArchState.Inv {c : Config} (m : ArchState c) : Prop where
  /-- STACK_CAP is unbounded or positive (R11) -/
  cfgLegal : c.wf = true
  /-- the code memory is in canonical form -/
  codeCanonical : Memory.wf m.code = true
  /-- no byte is held at or beyond CODE_LEN (R51) -/
  codeInside : ∀ p ∈ m.code, p.1 < m.codeLen.toNat
  /-- depth <= STACK_CAP (R31) -/
  stackFits : c.stackCap.holds m.stack.length = true
  /-- the fault record is `none` exactly when status is not Faulted (R30: "written only on entry to Faulted") -/
  faultedHasRecord : m.status = .faulted ↔ m.fault.isSome = true
  /-- the record's FAULT_ADDR is ip, and its FAULT_INFO is one its kind records (R201, R205) -/
  recordLegal : ∀ f, m.fault = some f → f.addr = m.ip ∧ f.kind.infoLegal f.info = true
  /-- an Idle core is in its reset state but for its code (R28, R230) -/
  idleIsReset : m.status = .idle → m = m.resetInput

/-- The invariant, of a machine. -/
def State.Inv (s : State) : Prop := s.arch.Inv

/-- The states a machine of a legal configuration can be in: from its reset state by steps and host actions (R233). -/
inductive Reachable : State → Prop where
  | fresh (c : Config) (h : c.wf = true) : Reachable ⟨c, ArchState.reset c⟩
  | step {s t : State} (h : Reachable s) (e : step s = .next t) : Reachable t
  | run {c : Config} {m : ArchState c} (h : Reachable ⟨c, m⟩) : Reachable ⟨c, m.runCommand⟩
  | reset {c : Config} {m : ArchState c} (h : Reachable ⟨c, m⟩) : Reachable ⟨c, m.resetInput⟩
  | load {c : Config} {m t : ArchState c} (h : Reachable ⟨c, m⟩) (bytes : List Byte) (e : m.loadCode bytes = .ok t) :
      Reachable ⟨c, t⟩

/-- A state that is not the end of a failed run. -/
def State.Safe (s : State) : Prop := s.arch.status ≠ .faulted

/-- The next `n` steps take no fault: what a claim that a program runs safely is stated with. -/
def SafeFor : Nat → State → Prop
  | 0, s => s.Safe
  | n + 1, s => s.Safe ∧ ∃ t, step s = .next t ∧ SafeFor n t

end Sys2Proof.Machine
end

