-- ==== Sys2Proof/Certificates/Slice0/Obligations.lean ====
section
/-! DEFINITION. The statements about the model. `c` is any configuration (every WORD_BITS, every STACK_CAP), `m` any
architectural state of it. A value is pinned by its natural number, as the spec's pseudocode computes it (R12). A next
state is written as the old one with the fields that change, so that everything else is said to be unchanged. -/

open Sys2Proof Sys2Proof.Machine

/-! ### Encoding (30_encoding.md) -/

/-- R80, R81, R84 to R86, R91: decoding the bytes of a well-formed instruction gives it back, whatever bytes follow. -/
def Obligations.DecodeOfEncodeIsTheInstruction : Prop :=
  ∀ (i : Instr) (rest : List Byte), i.wf = true → decode (encode i ++ rest) = .ok i

/-- R81, R83, R86: whatever decodes is well-formed and stands at the front of the bytes, encoded. -/
def Obligations.DecodedBytesAreTheEncoding : Prop :=
  ∀ (bs : List Byte) (i : Instr), decode bs = .ok i → i.wf = true ∧ ∃ rest, bs = encode i ++ rest

/-- R86, bits written out from the opcode map's binary column: one instruction of each format and family. -/
def Obligations.SampleEncodingsDecode : Prop :=
  decode [0b00000000#8] = .ok .nop ∧
  decode [0b00010001#8] = .ok .ret ∧
  decode [0b00000011#8, 0b00000010#8] = .ok (.jmp 2) ∧
  decode [0b01000110#8, 0b00000111#8] = .ok (.pop 7) ∧
  decode [0b10000010#8, 0b00000000#8, 0b11111111#8] = .ok (.ldi 0 255) ∧
  decode [0b10100010#8, 0b00000001#8, 0b00000110#8] = .ok (.mul 1 6) ∧
  decode [0b10100011#8, 0b00000100#8, 0b00000011#8] = .ok (.div 4 3)

/-- R87, R114: a byte outside the opcode map, and no other, decodes as InvalidInstruction carrying the byte, whatever
follows it or does not; a Running core that fetches it takes that fault with the byte as FAULT_INFO. -/
def Obligations.ByteOutsideTheMapFaults : Prop :=
  (∀ (op : Byte) (rest : List Byte),
    decode (op :: rest) = .error (.invalidInstruction op) ↔ op.toNat ∉ [0, 1, 3, 17, 69, 70, 71, 80, 130, 162, 163]) ∧
  (∀ (c : Config) (m : ArchState c) (op : Byte), m.status = .running → m.byteAt 0 = some op →
    op.toNat ∉ [0, 1, 3, 17, 69, 70, 71, 80, 130, 162, 163] →
    step ⟨c, m⟩ = .next ⟨c, m.inFault .invalidInstruction op⟩)

/-! ### System instructions (41_system.md) -/

/-- R140: NOP is the byte 0 and only advances ip. In the code the increment cannot overflow. -/
def Obligations.NopOnlyAdvances : Prop :=
  ∀ (c : Config) (m : ArchState c),
    encode .nop = [0] ∧
    (m.ip ≠ Word.top c.bits → exec .nop ⟨c, m⟩ = .next ⟨c, { m with ip := m.ip + 1 }⟩) ∧
    (m.status = .running → m.byteAt 0 = some 0 → step ⟨c, m⟩ = .next ⟨c, { m with ip := m.ip + 1 }⟩)

/-- R141: HLT is the byte 1; status becomes Halted and the increment still follows, so ip = a + 1. No step follows. -/
def Obligations.HltHaltsPastItself : Prop :=
  ∀ (c : Config) (m : ArchState c),
    encode .hlt = [1] ∧
    (m.ip ≠ Word.top c.bits → exec .hlt ⟨c, m⟩ = .next ⟨c, { m with status := .halted, ip := m.ip + 1 }⟩) ∧
    (m.status = .running → m.byteAt 0 = some 1 →
      step ⟨c, m⟩ = .next ⟨c, { m with status := .halted, ip := m.ip + 1 }⟩)

/-- R142: PRN appends the whole W-bit value of the register to the output. -/
def Obligations.PrnEmitsTheWholeWord : Prop :=
  ∀ (c : Config) (m : ArchState c) (r : Byte),
    encode (.prn r) = [71, r] ∧
    (∀ h : r.toNat < 8, m.ip + 1 ≠ Word.top c.bits →
      exec (.prn r) ⟨c, m⟩ = .next ⟨c, { m with out := m.out ++ [m.x[r.toNat]], ip := m.ip + 2 }⟩) ∧
    DecodeFaultsR 71 m

/-! ### Data movement (42_data_movement.md) -/

/-- R150: LDI replaces the whole register by the zero-extended immediate, for every immediate. -/
def Obligations.LdiZeroExtends : Prop :=
  ∀ (c : Config) (m : ArchState c) (r imm : Byte),
    encode (.ldi r imm) = [130, r, imm] ∧
    (∀ h : r.toNat < 8, m.ip + 2 ≠ Word.top c.bits →
      ∃ v : c.Word, v.toNat = imm.toNat ∧
        exec (.ldi r imm) ⟨c, m⟩ = .next ⟨c, { m with x := m.x.set r.toNat v, ip := m.ip + 3 }⟩) ∧
    DecodeFaultsRI 130 m

/-- R151: PUSH puts the register's low 8 bits on top of the stack, and faults with StackOverflow on a full stack. -/
def Obligations.PushTruncatesToAByte : Prop :=
  ∀ (c : Config) (m : ArchState c) (r : Byte),
    encode (.push r) = [69, r] ∧
    (∀ h : r.toNat < 8, c.stackCap ≠ .entries m.stack.length → m.ip + 1 ≠ Word.top c.bits →
      ∃ b : Byte, b.toNat = m.x[r.toNat].toNat % 256 ∧
        exec (.push r) ⟨c, m⟩ = .next ⟨c, { m with stack := b :: m.stack, ip := m.ip + 2 }⟩) ∧
    (r.toNat < 8 → c.stackCap = .entries m.stack.length →
      exec (.push r) ⟨c, m⟩ = .next ⟨c, m.inFault .stackOverflow 0⟩) ∧
    DecodeFaultsR 69 m

/-- R152: POP removes the top byte into the register, zero-extended, and faults with StackUnderflow on an empty
stack. -/
def Obligations.PopZeroExtends : Prop :=
  ∀ (c : Config) (m : ArchState c) (r : Byte),
    encode (.pop r) = [70, r] ∧
    (∀ (h : r.toNat < 8) (b : Byte) (rest : List Byte), m.stack = b :: rest → m.ip + 1 ≠ Word.top c.bits →
      ∃ v : c.Word, v.toNat = b.toNat ∧
        exec (.pop r) ⟨c, m⟩ = .next ⟨c, { m with stack := rest, x := m.x.set r.toNat v, ip := m.ip + 2 }⟩) ∧
    (r.toNat < 8 → m.stack = [] → exec (.pop r) ⟨c, m⟩ = .next ⟨c, m.inFault .stackUnderflow 0⟩) ∧
    DecodeFaultsR 70 m

/-- R151, R152: a byte pushed from a register and then popped is the register's low byte, and the stack is as it was
before the push. `u` is any state between the two with the stack the push left. -/
def Obligations.PushThenPopKeepsTheLowByte : Prop :=
  ∀ (c : Config) (m : ArchState c) (ra rb : Byte) (ha : ra.toNat < 8) (hb : rb.toNat < 8),
    c.stackCap ≠ .entries m.stack.length → m.ip + 1 ≠ Word.top c.bits →
    ∃ t : ArchState c, exec (.push ra) ⟨c, m⟩ = .next ⟨c, t⟩ ∧
      ∀ u : ArchState c, u.stack = t.stack → u.ip + 1 ≠ Word.top c.bits →
        ∃ u' : ArchState c, exec (.pop rb) ⟨c, u⟩ = .next ⟨c, u'⟩ ∧ u'.stack = m.stack ∧
          u'.x[rb.toNat].toNat = m.x[ra.toNat].toNat % 256

/-! ### Control transfer (43_control_transfer.md) -/

/-- R160: JMP lands one past the register's value; IpOverflow at 2^W - 1. -/
def Obligations.JmpLandsOnePastTheRegister : Prop :=
  ∀ (c : Config) (m : ArchState c) (r : Byte),
    encode (.jmp r) = [3, r] ∧
    (∀ h : r.toNat < 8, m.x[r.toNat] ≠ Word.top c.bits →
      exec (.jmp r) ⟨c, m⟩ = .next ⟨c, { m with ip := m.x[r.toNat] + 1 }⟩) ∧
    (∀ h : r.toNat < 8, m.x[r.toNat] = Word.top c.bits →
      exec (.jmp r) ⟨c, m⟩ = .next ⟨c, m.inFault .ipOverflow 0⟩) ∧
    DecodeFaultsR 3 m

/-- R161: CALL at address a pushes (a + 2) mod 256 and lands one past the register's value; a full stack faults with
StackOverflow whatever the target, and a target of 2^W - 1 with IpOverflow, the push not made. -/
def Obligations.CallPushesTheReturnByte : Prop :=
  ∀ (c : Config) (m : ArchState c) (r : Byte),
    encode (.call r) = [80, r] ∧
    (∀ h : r.toNat < 8, c.stackCap ≠ .entries m.stack.length → m.x[r.toNat] ≠ Word.top c.bits →
      ∃ b : Byte, b.toNat = (m.ip.toNat + 2) % 256 ∧
        exec (.call r) ⟨c, m⟩ = .next ⟨c, { m with stack := b :: m.stack, ip := m.x[r.toNat] + 1 }⟩) ∧
    (r.toNat < 8 → c.stackCap = .entries m.stack.length →
      exec (.call r) ⟨c, m⟩ = .next ⟨c, m.inFault .stackOverflow 0⟩) ∧
    (∀ h : r.toNat < 8, c.stackCap ≠ .entries m.stack.length → m.x[r.toNat] = Word.top c.bits →
      exec (.call r) ⟨c, m⟩ = .next ⟨c, m.inFault .ipOverflow 0⟩) ∧
    DecodeFaultsR 80 m

/-- R162: RET pops the top byte and lands one past it; StackUnderflow on an empty stack; IpOverflow when W = 8 and the
byte is 255. -/
def Obligations.RetLandsOnePastTheByte : Prop :=
  ∀ (c : Config) (m : ArchState c),
    encode .ret = [17] ∧
    (∀ (b : Byte) (rest : List Byte), m.stack = b :: rest → ¬ (c.wordSize = .w8 ∧ b = 255) →
      ∃ v : c.Word, v.toNat = b.toNat + 1 ∧ exec .ret ⟨c, m⟩ = .next ⟨c, { m with stack := rest, ip := v }⟩) ∧
    (m.stack = [] → exec .ret ⟨c, m⟩ = .next ⟨c, m.inFault .stackUnderflow 0⟩) ∧
    (∀ rest : List Byte, m.stack = 255 :: rest → c.wordSize = .w8 →
      exec .ret ⟨c, m⟩ = .next ⟨c, m.inFault .ipOverflow 0⟩)

/-- R164, R165: after a CALL at address a, a RET that finds the stack the CALL left lands at ((a + 2) mod 256) + 1,
which is a + 3 for a <= 253, with the stack as before the CALL. Excluded is the one return byte that has no landing
address: 255 when W = 8 (R162). `u` is any state between the two with the stack the CALL left. -/
def Obligations.ReturnSkipsOneByte : Prop :=
  ∀ (c : Config) (m : ArchState c) (r : Byte) (h : r.toNat < 8),
    c.stackCap ≠ .entries m.stack.length → m.x[r.toNat] ≠ Word.top c.bits →
    ¬ (c.wordSize = .w8 ∧ (m.ip.toNat + 2) % 256 = 255) →
    ∃ t : ArchState c, exec (.call r) ⟨c, m⟩ = .next ⟨c, t⟩ ∧
      ∀ u : ArchState c, u.stack = t.stack →
        ∃ u' : ArchState c, exec .ret ⟨c, u⟩ = .next ⟨c, u'⟩ ∧ u'.stack = m.stack ∧
          u'.ip.toNat = (m.ip.toNat + 2) % 256 + 1 ∧ (m.ip.toNat ≤ 253 → u'.ip.toNat = m.ip.toNat + 3)

/-- R160, R161, R165: in every width, an instruction that completes leaves ip at an address other than 0, and a RET
that completes leaves it in 1..256. -/
def Obligations.NoLandingAtAddressZero : Prop :=
  ∀ (c : Config) (m t : ArchState c) (i : Instr), exec i ⟨c, m⟩ = .next ⟨c, t⟩ → t.status ≠ .faulted →
    t.ip ≠ 0 ∧ (i = .ret → 1 ≤ t.ip.toNat ∧ t.ip.toNat ≤ 256)

/-! ### Arithmetic (44_alu.md) -/

/-- R170, R173: MUL keeps the exact product modulo 2^W, for every pair of operands and also when ra = rb. -/
def Obligations.MulKeepsTheProductModuloTheWord : Prop :=
  ∀ (c : Config) (m : ArchState c) (ra rb : Byte),
    encode (.mul ra rb) = [162, ra, rb] ∧
    (∀ (ha : ra.toNat < 8) (hb : rb.toNat < 8), m.ip + 2 ≠ Word.top c.bits →
      ∃ v : c.Word, v.toNat = m.x[ra.toNat].toNat * m.x[rb.toNat].toNat % 2 ^ c.bits ∧
        exec (.mul ra rb) ⟨c, m⟩ = .next ⟨c, { m with x := m.x.set ra.toNat v, ip := m.ip + 3 }⟩) ∧
    DecodeFaultsRR 162 m

/-- R171, R174: DIV by a nonzero divisor d writes the unique q with n = q * d + rem and rem < d; a divisor of 0
faults. -/
def Obligations.DivWritesTheFloorQuotient : Prop :=
  ∀ (c : Config) (m : ArchState c) (ra rb : Byte),
    encode (.div ra rb) = [163, ra, rb] ∧
    (∀ (ha : ra.toNat < 8) (hb : rb.toNat < 8), m.x[rb.toNat] ≠ 0 → m.ip + 2 ≠ Word.top c.bits →
      ∃ (q : c.Word) (rem : Nat),
        m.x[ra.toNat].toNat = q.toNat * m.x[rb.toNat].toNat + rem ∧ rem < m.x[rb.toNat].toNat ∧
        exec (.div ra rb) ⟨c, m⟩ = .next ⟨c, { m with x := m.x.set ra.toNat q, ip := m.ip + 3 }⟩) ∧
    (∀ (_ha : ra.toNat < 8) (hb : rb.toNat < 8), m.x[rb.toNat] = 0 →
      exec (.div ra rb) ⟨c, m⟩ = .next ⟨c, m.inFault .divideByZero 0⟩) ∧
    DecodeFaultsRR 163 m

/-! ### The cycle (40_cycle.md) -/

/-- R111, R118, R119: when a Running core's code holds a well-formed instruction at ip, a step is that instruction's
meaning on the state, and nothing is added around it. -/
def Obligations.StepRunsTheDecodedInstruction : Prop :=
  ∀ (c : Config) (m : ArchState c) (i : Instr), m.status = .running → i.wf = true → m.holdsAtIp (encode i) →
    step ⟨c, m⟩ = exec i ⟨c, m⟩

/-- R112: at the end of the code the run ends in Halted and nothing else changes. -/
def Obligations.EndOfCodeEndsTheRun : Prop :=
  ∀ (c : Config) (m : ArchState c), m.status = .running → m.codeLen.toNat ≤ m.ip.toNat →
    step ⟨c, m⟩ = .next ⟨c, { m with status := .halted }⟩

/-- R116: an operand byte at or beyond CODE_LEN faults with TruncatedInstruction, whatever the operand bytes there
are: a register field out of range before the end is not reported (R202). -/
def Obligations.MissingOperandFaults : Prop :=
  ∀ (c : Config) (m : ArchState c) (op : Byte) (n : Nat), m.status = .running → m.byteAt 0 = some op →
    (op.toNat, n) ∈ [(3, 1), (69, 1), (70, 1), (71, 1), (80, 1), (130, 2), (162, 2), (163, 2)] →
    m.codeLen.toNat ≤ m.ip.toNat + n →
    step ⟨c, m⟩ = .next ⟨c, m.inFault .truncatedInstruction 0⟩

/-- R117: the first register field of 8 or more, in operand order, faults with RegisterOutOfRange and is FAULT_INFO;
the immediate of LDI is not checked. -/
def Obligations.RegisterFieldsAreCheckedInOrder : Prop :=
  ∀ (c : Config) (m : ArchState c) (op o1 o2 : Byte), m.status = .running → m.byteAt 0 = some op →
    m.byteAt 1 = some o1 →
    (op.toNat ∈ [3, 69, 70, 71, 80] → 8 ≤ o1.toNat →
      step ⟨c, m⟩ = .next ⟨c, m.inFault .registerOutOfRange o1⟩) ∧
    (op.toNat ∈ [130, 162, 163] → m.byteAt 2 = some o2 → 8 ≤ o1.toNat →
      step ⟨c, m⟩ = .next ⟨c, m.inFault .registerOutOfRange o1⟩) ∧
    (op.toNat ∈ [162, 163] → m.byteAt 2 = some o2 → o1.toNat < 8 → 8 ≤ o2.toNat →
      step ⟨c, m⟩ = .next ⟨c, m.inFault .registerOutOfRange o2⟩) ∧
    (op.toNat = 130 → m.byteAt 2 = some o2 → o1.toNat < 8 → step ⟨c, m⟩ = exec (.ldi o1 o2) ⟨c, m⟩)

/-- R204, for an instruction term no decode gives: its meaning raises RegisterOutOfRange for the first bad field and
has no other effect. That `exec` checks what decode has checked is the model's choice (log entry 11). -/
def Obligations.IllFormedTermRaisesRegisterOutOfRange : Prop :=
  ∀ (c : Config) (m : ArchState c) (i : Instr) (v : Byte), i.firstBadField = some v →
    8 ≤ v.toNat ∧ exec i ⟨c, m⟩ = .next ⟨c, m.inFault .registerOutOfRange v⟩

/-- R121: an increment due at ip = 2^W - 1 raises IpOverflow instead, for every instruction; and of the instructions
that a step runs, only JMP and CALL (register holding 2^W - 1) and, when W = 8, RET (popping 255) can reach it. -/
def Obligations.IncrementAtTheTopFaults : Prop :=
  (∀ (c : Config) (m : ArchState c),
    (m.ip = Word.top c.bits → exec .nop ⟨c, m⟩ = .next ⟨c, m.inFault .ipOverflow 0⟩ ∧
      exec .hlt ⟨c, m⟩ = .next ⟨c, m.inFault .ipOverflow 0⟩) ∧
    (∀ r : Byte, r.toNat < 8 → m.ip + 1 = Word.top c.bits →
      exec (.prn r) ⟨c, m⟩ = .next ⟨c, m.inFault .ipOverflow 0⟩ ∧
      (c.stackCap ≠ .entries m.stack.length → exec (.push r) ⟨c, m⟩ = .next ⟨c, m.inFault .ipOverflow 0⟩) ∧
      (m.stack ≠ [] → exec (.pop r) ⟨c, m⟩ = .next ⟨c, m.inFault .ipOverflow 0⟩)) ∧
    (∀ ra rb : Byte, (ha : ra.toNat < 8) → m.ip + 2 = Word.top c.bits →
      exec (.ldi ra rb) ⟨c, m⟩ = .next ⟨c, m.inFault .ipOverflow 0⟩ ∧
      ((hb : rb.toNat < 8) → exec (.mul ra rb) ⟨c, m⟩ = .next ⟨c, m.inFault .ipOverflow 0⟩ ∧
        (m.x[rb.toNat] ≠ 0 → exec (.div ra rb) ⟨c, m⟩ = .next ⟨c, m.inFault .ipOverflow 0⟩))) ∧
    (∀ r : Byte, (h : r.toNat < 8) → m.x[r.toNat] = Word.top c.bits →
      exec (.jmp r) ⟨c, m⟩ = .next ⟨c, m.inFault .ipOverflow 0⟩ ∧
      (c.stackCap ≠ .entries m.stack.length → exec (.call r) ⟨c, m⟩ = .next ⟨c, m.inFault .ipOverflow 0⟩)) ∧
    (∀ rest : List Byte, m.stack = 255 :: rest → c.wordSize = .w8 →
      exec .ret ⟨c, m⟩ = .next ⟨c, m.inFault .ipOverflow 0⟩)) ∧
  (∀ (c : Config) (m : ArchState c), m.status = .running →
    step ⟨c, m⟩ = .next ⟨c, m.inFault .ipOverflow 0⟩ →
      (∃ (r : Byte) (h : r.toNat < 8), (m.byteAt 0 = some 3 ∨ m.byteAt 0 = some 80) ∧ m.byteAt 1 = some r ∧
        m.x[r.toNat] = Word.top c.bits) ∨
      (m.byteAt 0 = some 17 ∧ c.wordSize = .w8 ∧ m.stack.head? = some 255))

/-- R123: a step from a Running state yields a next state of the same machine. The rest is the model's choice: that
`step` answers a next state in Idle, Halted and Faulted, where R124 has no step (log entry 3); that a fault is such a
next state, so that the outcomes fault and refused are never answered (log entry 4); that `exec` answers one for every
term, ill-formed ones too (log entry 11). -/
def Obligations.EveryStepHasANextState : Prop :=
  ∀ (c : Config) (m : ArchState c),
    (∃ t : ArchState c, step ⟨c, m⟩ = .next ⟨c, t⟩) ∧
    (∀ i : Instr, ∃ t : ArchState c, exec i ⟨c, m⟩ = .next ⟨c, t⟩)

/-- A core that is Idle, Halted or Faulted, where R124 has no step and no state change, answers the unchanged state
however often it is asked to step. That the answer is a next state equal to the old one is the model's choice (log
entry 3). -/
def Obligations.StoppedCoreDoesNothing : Prop :=
  ∀ (c : Config) (m : ArchState c) (k : Nat), m.status ≠ .running →
    Host.Core.run Sys2Proof.core k ⟨c, m⟩ = .next ⟨c, m⟩

/-- R122: a step of a Running core leaves it Halted only at the end of the code or by HLT, whose increment follows. -/
def Obligations.OnlyHltOrEndOfCodeHalts : Prop :=
  ∀ (c : Config) (m t : ArchState c), m.status = .running → step ⟨c, m⟩ = .next ⟨c, t⟩ → t.status = .halted →
    (m.byteAt 0 = none ∧ t = { m with status := .halted }) ∨
    (m.byteAt 0 = some 1 ∧ t = { m with status := .halted, ip := m.ip + 1 })

/-! ### Faults (60_exceptions.md) -/

/-- R203, R205: a step that ends in Faulted has no other effect than the status and the fault record, which holds the
opcode's address and an info its kind records (R201). -/
def Obligations.FaultsArePrecise : Prop :=
  ∀ (c : Config) (m t : ArchState c), m.status = .running → step ⟨c, m⟩ = .next ⟨c, t⟩ → t.status = .faulted →
    ∃ (kind : Fault) (info : Byte),
      t = { m with status := .faulted, fault := some { kind := kind, addr := m.ip, info := info } } ∧
      kind.infoLegal info = true

/-- R201, R202: for every fault a step can take, the opcodes that raise it, its cause in the state the step began in,
and its FAULT_INFO. -/
def Obligations.EachFaultHasItsCause : Prop :=
  ∀ (c : Config) (m : ArchState c) (kind : Fault) (info : Byte), m.status = .running →
    step ⟨c, m⟩ = .next ⟨c, m.inFault kind info⟩ →
    ∃ op : Byte, m.byteAt 0 = some op ∧
      match kind with
      | .invalidInstruction => op.toNat ∉ [0, 1, 3, 17, 69, 70, 71, 80, 130, 162, 163] ∧ info = op
      | .stackUnderflow => op.toNat ∈ [70, 17] ∧ m.stack = [] ∧ info = 0
      | .divideByZero =>
          op.toNat = 163 ∧ (∃ (rb : Byte) (h : rb.toNat < 8), m.byteAt 2 = some rb ∧ m.x[rb.toNat] = 0) ∧ info = 0
      | .registerOutOfRange =>
          op.toNat ∈ [71, 3, 69, 70, 80, 130, 162, 163] ∧ 8 ≤ info.toNat ∧
            (m.byteAt 1 = some info ∨ (op.toNat ∈ [162, 163] ∧ m.byteAt 2 = some info))
      | .truncatedInstruction =>
          ((op.toNat ∈ [3, 69, 70, 71, 80] ∧ m.byteAt 1 = none) ∨
            (op.toNat ∈ [130, 162, 163] ∧ m.byteAt 2 = none)) ∧ info = 0
      | .ipOverflow =>
          ((op.toNat ∈ [3, 80] ∧
              ∃ (r : Byte) (h : r.toNat < 8), m.byteAt 1 = some r ∧ m.x[r.toNat] = Word.top c.bits) ∨
            (op.toNat = 17 ∧ c.wordSize = .w8 ∧ m.stack.head? = some 255)) ∧ info = 0
      | .stackOverflow => op.toNat ∈ [69, 80] ∧ c.stackCap = .entries m.stack.length ∧ info = 0

/-- R206: the run command does not leave Faulted, and the reset input does. That `step`, which R206 does not have in
Faulted, answers the unchanged state is the model's choice (log entry 3). -/
def Obligations.FaultedIsLeftByReset : Prop :=
  ∀ (c : Config) (m : ArchState c), m.status = .faulted →
    step ⟨c, m⟩ = .next ⟨c, m⟩ ∧ m.runCommand = m ∧ m.resetInput.status = .idle

/-! ### Frames -/

/-- R23: a register other than the destination of LDI, POP, MUL (ra) and DIV (ra) is never changed; in particular NOP,
HLT, RET, JMP, CALL, PUSH and PRN change none, and no instruction changes more than one. -/
def Obligations.OnlyTheDestinationRegisterChanges : Prop :=
  ∀ (c : Config) (m t : ArchState c) (i : Instr), exec i ⟨c, m⟩ = .next ⟨c, t⟩ →
    ∀ (k : Nat) (hk : k < 8),
      (∀ r imm : Byte, i = .ldi r imm → r.toNat ≠ k) → (∀ r : Byte, i = .pop r → r.toNat ≠ k) →
      (∀ ra rb : Byte, i = .mul ra rb → ra.toNat ≠ k) → (∀ ra rb : Byte, i = .div ra rb → ra.toNat ≠ k) →
      t.x[k] = m.x[k]

/-- R23: a register an instruction does not read has no influence on it: with another value there, everything but that
register ends the same. -/
def Obligations.UnreadRegistersDoNotMatter : Prop :=
  ∀ (c : Config) (m t : ArchState c) (i : Instr) (k : Nat) (hk : k < 8) (v : c.Word),
    (∀ r : Byte, i = .prn r ∨ i = .jmp r ∨ i = .call r ∨ i = .push r → r.toNat ≠ k) →
    (∀ ra rb : Byte, i = .mul ra rb ∨ i = .div ra rb → ra.toNat ≠ k ∧ rb.toNat ≠ k) →
    exec i ⟨c, m⟩ = .next ⟨c, t⟩ →
    ∃ t' : ArchState c, exec i ⟨c, { m with x := m.x.set k v }⟩ = .next ⟨c, t'⟩ ∧
      t'.ip = t.ip ∧ t'.status = t.status ∧ t'.fault = t.fault ∧ t'.stack = t.stack ∧ t'.out = t.out ∧
      t'.codeLen = t.codeLen ∧ t'.code = t.code ∧ ∀ (j : Nat) (hj : j < 8), j ≠ k → t'.x[j] = t.x[j]

/-- R31, R32: PUSH and CALL can only add one entry on top, POP and RET only remove the top one, and nothing else
touches the stack. -/
def Obligations.OnlyTheTopOfTheStackChanges : Prop :=
  ∀ (c : Config) (m t : ArchState c) (i : Instr), exec i ⟨c, m⟩ = .next ⟨c, t⟩ →
    t.stack = m.stack ∨
    ((∃ r : Byte, i = .push r ∨ i = .call r) ∧ ∃ b : Byte, t.stack = b :: m.stack) ∨
    ((i = .ret ∨ ∃ r : Byte, i = .pop r) ∧ ∃ b : Byte, m.stack = b :: t.stack)

/-- R33: only PRN writes the output trace, by appending its register's value; it is empty at reset. -/
def Obligations.OnlyPrnWritesTheOutput : Prop :=
  (∀ (c : Config) (m t : ArchState c) (i : Instr), exec i ⟨c, m⟩ = .next ⟨c, t⟩ →
    t.out = m.out ∨ ∃ (r : Byte) (h : r.toNat < 8), i = .prn r ∧ t.out = m.out ++ [m.x[r.toNat]]) ∧
  (∀ (c : Config) (m : ArchState c), (ArchState.reset c).out = [] ∧ m.resetInput.out = [])

/-- R28, R30: an instruction changes status only by HLT or a fault; a step only so or by the end-of-code check, which
changes nothing else; of the host's actions the run command writes status only from Idle, and reset makes it Idle. The
fault record is written only by a fault, which changes nothing else but status, and cleared by reset. -/
def Obligations.StatusChangesOnlyByHltOrFault : Prop :=
  ∀ (c : Config) (m : ArchState c),
    (∀ (i : Instr) (t : ArchState c), exec i ⟨c, m⟩ = .next ⟨c, t⟩ →
      (t.status = m.status ∧ t.fault = m.fault) ∨ (i = .hlt ∧ t.status = .halted ∧ t.fault = m.fault) ∨
      ∃ (kind : Fault) (info : Byte), t = m.inFault kind info) ∧
    (∀ t : ArchState c, step ⟨c, m⟩ = .next ⟨c, t⟩ →
      (t.status = m.status ∧ t.fault = m.fault) ∨
      (m.status = .running ∧ m.byteAt 0 = none ∧ t = { m with status := .halted }) ∨
      (m.status = .running ∧ m.byteAt 0 = some 1 ∧ t.status = .halted ∧ t.fault = m.fault) ∨
      (m.status = .running ∧ ∃ (kind : Fault) (info : Byte), t = m.inFault kind info)) ∧
    (m.runCommand.fault = m.fault ∧
      (m.runCommand.status = m.status ∨ (m.status = .idle ∧ m.runCommand.status = .running))) ∧
    (m.resetInput.status = .idle ∧ m.resetInput.fault = none)

/-- R53: no instruction and no step writes the code: every address reads as before and CODE_LEN is the same; of the
host's actions only a load changes code, and it is refused while the core is Running (the name of its error is the
model's choice, log entry 7). -/
def Obligations.NothingWritesCodeDuringARun : Prop :=
  ∀ (c : Config) (m : ArchState c),
    (∀ (i : Instr) (t : ArchState c), exec i ⟨c, m⟩ = .next ⟨c, t⟩ →
      t.codeLen = m.codeLen ∧ ∀ a : Nat, Memory.read t.code a = Memory.read m.code a) ∧
    (∀ t : ArchState c, step ⟨c, m⟩ = .next ⟨c, t⟩ →
      t.codeLen = m.codeLen ∧ ∀ a : Nat, Memory.read t.code a = Memory.read m.code a) ∧
    (m.runCommand.codeLen = m.codeLen ∧ m.runCommand.code = m.code) ∧
    (m.resetInput.codeLen = m.codeLen ∧ m.resetInput.code = m.code) ∧
    (m.status = .running → ∀ bytes : List Byte, m.loadCode bytes = .error .coreRunning)

/-! ### Invariants -/

/-- The invariant holds at reset, in every legal configuration and in the model's reset state. -/
def Obligations.ResetStateIsLegal : Prop :=
  State.reset.Inv ∧ ∀ c : Config, c.wf = true → (ArchState.reset c).Inv

/-- Every step keeps the invariant, from every state that has it. -/
def Obligations.StepKeepsTheInvariant : Prop :=
  ∀ s t : State, s.Inv → step s = .next t → t.Inv

/-- Every host action keeps the invariant. -/
def Obligations.HostActionsKeepTheInvariant : Prop :=
  ∀ (c : Config) (m : ArchState c), m.Inv →
    m.runCommand.Inv ∧ m.resetInput.Inv ∧
    ∀ (bytes : List Byte) (t : ArchState c), m.loadCode bytes = .ok t → t.Inv

/-- Every state that steps and host actions can bring about, in any order, has the invariant; one that is Idle has
zero registers, an empty stack and an empty output (R230), and one that is Faulted has a record at its ip (R205).
That the reset input acts also while Running is the model's reading of R35 (log entry 8). -/
def Obligations.ReachableStatesAreLegal : Prop :=
  ∀ (c : Config) (m : ArchState c), Reachable ⟨c, m⟩ →
    m.Inv ∧
    (m.status = .idle → (∀ (k : Nat) (hk : k < 8), m.x[k] = 0) ∧ m.ip = 0 ∧ m.stack = [] ∧ m.out = []) ∧
    (m.status = .faulted → ∃ f, m.fault = some f ∧ f.addr = m.ip)

/-! ### Reset and the host's side (10_state.md section 8, 20_memory.md section 6, 70_reset_and_hazards.md) -/

/-- R230, R232: the reset input sets every piece of state to its reset value and keeps the code; before a load there
is no code. -/
def Obligations.ResetSetsEveryValueButCode : Prop :=
  (∀ (c : Config) (m : ArchState c),
    (∀ (k : Nat) (hk : k < 8), m.resetInput.x[k] = 0) ∧ m.resetInput.ip = 0 ∧ m.resetInput.status = .idle ∧
    m.resetInput.stack = [] ∧ m.resetInput.fault = none ∧ m.resetInput.out = [] ∧
    m.resetInput.codeLen = m.codeLen ∧ m.resetInput.code = m.code) ∧
  (∀ c : Config, (ArchState.reset c).codeLen = 0 ∧ (ArchState.reset c).resetInput = ArchState.reset c)

/-- R37: the run command makes an Idle core Running and has no effect in any other status. -/
def Obligations.RunCommandStartsOnlyFromIdle : Prop :=
  ∀ (c : Config) (m : ArchState c),
    (m.status = .idle → m.runCommand = { m with status := .running }) ∧
    (m.status = .running ∨ m.status = .halted ∨ m.status = .faulted → m.runCommand = m)

/-- R27, R28, R38: the status output's four codes, the terminated flag, and the fault record shown exactly when
Faulted, FAULT_CODE numbered as R201 numbers the kinds. -/
def Obligations.StatusOutputShowsTheOutcome : Prop :=
  ∀ (c : Config) (m : ArchState c),
    (m.status = .idle → m.statusOutput = (0, none)) ∧ (m.status = .running → m.statusOutput = (1, none)) ∧
    (m.status = .halted → m.statusOutput = (2, none)) ∧
    (∀ f, m.status = .faulted → m.fault = some f → m.statusOutput = (3, some (f.kind.code, f.addr, f.info))) ∧
    (m.terminated = true ↔ m.status ≠ .running) ∧
    (m.runOver = true ↔ m.status = .halted ∨ m.status = .faulted) ∧
    (Fault.invalidInstruction.code = 1 ∧ Fault.stackUnderflow.code = 2 ∧ Fault.divideByZero.code = 3 ∧
      Fault.registerOutOfRange.code = 4 ∧ Fault.truncatedInstruction.code = 5 ∧ Fault.ipOverflow.code = 6 ∧
      Fault.stackOverflow.code = 7)

/-- R34, R74: a load while not Running replaces the whole code by the bytes, and puts everything else in its reset
value; loading a text that parses as these bytes is that load. -/
def Obligations.LoadReplacesTheWholeCode : Prop :=
  ∀ (c : Config) (m : ArchState c) (bytes : List Byte), m.status ≠ .running → bytes.length ≤ 2 ^ c.bits - 1 →
    ∃ t : ArchState c, m.loadCode bytes = .ok t ∧
      (∀ text : List Byte, parseImage text = .ok bytes → m.loadImage text = .ok t) ∧ t.codeLen.toNat = bytes.length ∧
      (∀ (k : Nat) (h : k < bytes.length), Memory.read t.code k = bytes[k]) ∧
      (∀ (k : Nat) (hk : k < 8), t.x[k] = 0) ∧ t.ip = 0 ∧ t.status = .idle ∧ t.stack = [] ∧ t.fault = none ∧
      t.out = []

/-- R75: a longer image is refused as InvalidArgumentValue, given as bytes or as a text. Its payload `tooLong` is the model's choice (log
entry 9). -/
def Obligations.TooLongAnImageIsRefused : Prop :=
  ∀ (c : Config) (m : ArchState c) (bytes : List Byte), m.status ≠ .running → 2 ^ c.bits - 1 < bytes.length →
    m.loadCode bytes = .error (.invalidArgumentValue .tooLong) ∧
    ∀ text : List Byte, parseImage text = .ok bytes → m.loadImage text = .error (.invalidArgumentValue .tooLong)

/-- R231, R233: after load and run the core is Running at address 0 with its state at reset, and the bytes it will
fetch are the program's, from the first on. -/
def Obligations.BootFetchesFromAddressZero : Prop :=
  ∀ (c : Config) (bytes : List Byte), bytes.length ≤ 2 ^ c.bits - 1 →
    ∃ m : ArchState c, State.boot c bytes = .ok ⟨c, m⟩ ∧ m.status = .running ∧ m.ip = 0 ∧
      (∀ k : Nat, m.byteAt k = bytes[k]?) ∧ (∀ (k : Nat) (hk : k < 8), m.x[k] = 0) ∧ m.stack = [] ∧ m.out = [] ∧
      m.fault = none

/-- R232: before the first load CODE_LEN = 0, and a run without a load ends at once in Halted. -/
def Obligations.RunWithoutALoadHaltsAtOnce : Prop :=
  ∀ c : Config, (ArchState.reset c).codeLen = 0 ∧
    step ⟨c, (ArchState.reset c).runCommand⟩ = .next ⟨c, { ArchState.reset c with status := .halted }⟩

/-- R72, R74, R92: the image of any code bytes, one 8-digit line per byte, parses as exactly those bytes, and loading
it into a core that is not Running puts exactly them in the code. -/
def Obligations.ImageOfBytesLoadsAsThem : Prop :=
  ∀ bytes : List Byte, parseImage (imageOf bytes) = .ok bytes ∧
    ∀ (c : Config) (m : ArchState c), m.status ≠ .running → bytes.length ≤ 2 ^ c.bits - 1 →
      ∃ t : ArchState c, m.loadImage (imageOf bytes) = .ok t ∧ t.ip = 0 ∧ t.status = .idle ∧
        ∀ k : Nat, t.byteAt k = bytes[k]?

/-- R70, R71: a line that begins with `#`, or is shorter than 8 bytes once its one trailing carriage return is removed,
contributes nothing, before other lines or alone. That the lines may be any bytes, also such that are no UTF-8 text, is
the model's choice (log entry 9). -/
def Obligations.SkippedLinesContributeNothing : Prop :=
  ∀ (ln cr rest : List Byte), (∀ b ∈ ln, b ≠ 0x0A) → (cr = [0x0D] ∨ (cr = [] ∧ ln.getLast? ≠ some 0x0D)) →
    (ln.head? = some 0x23 ∨ ln.length < 8) →
    (parseImage (ln ++ cr ++ 0x0A :: rest)).toOption = (parseImage rest).toOption ∧
    parseImage (ln ++ cr) = .ok []

/-- R70, R72: a line that begins with 8 binary digits contributes their value, the first digit being bit 7; what
follows them on the line is discarded; before other lines, and as a last line that no line feed ends. That `tail` and
`rest` may be any bytes, also such that are no UTF-8 text, is the model's choice (log entry 9). -/
def Obligations.RetainedLineContributesItsByte : Prop :=
  ∀ (d7 d6 d5 d4 d3 d2 d1 d0 : Bool) (tail cr rest : List Byte), (∀ b ∈ tail, b ≠ 0x0A) →
    (cr = [0x0D] ∨ (cr = [] ∧ tail.getLast? ≠ some 0x0D)) →
    ∃ v : Byte, v.toNat = 128 * d7.toNat + 64 * d6.toNat + 32 * d5.toNat + 16 * d4.toNat + 8 * d3.toNat +
        4 * d2.toNat + 2 * d1.toNat + d0.toNat ∧
      (parseImage ([d7, d6, d5, d4, d3, d2, d1, d0].map (fun d => if d then 0x31 else 0x30) ++ tail ++ cr ++
        0x0A :: rest)).toOption = (parseImage rest).toOption.map (fun bs => v :: bs) ∧
      parseImage ([d7, d6, d5, d4, d3, d2, d1, d0].map (fun d => if d then 0x31 else 0x30) ++ tail ++ cr) = .ok [v]

/-- R73: a retained line with a character other than `0` and `1` among its first 8 fails the whole load, wherever it
stands, also as a last line that no line feed ends (`after` is empty then): nothing is delivered, and the core is not
touched. The reason InvalidArgumentValue carries is left open here.
That the text may be any bytes, also such that are no UTF-8 text, is the model's choice (log entry 9). On a Running
core, which takes no load (log entry 7), the load fails with some error. -/
def Obligations.BadDigitFailsTheWholeLoad : Prop :=
  ∀ (c : Config) (m : ArchState c) (before ln cr after : List Byte) (k : Nat) (h : k < ln.length),
    (before = [] ∨ before.getLast? = some 0x0A) → (∀ b ∈ ln, b ≠ 0x0A) →
    (cr = [0x0D] ∨ (cr = [] ∧ ln.getLast? ≠ some 0x0D)) → (after = [] ∨ after.head? = some 0x0A) →
    ln.head? ≠ some 0x23 → 8 ≤ ln.length → k < 8 → ln[k] ≠ 0x30 → ln[k] ≠ 0x31 →
    (∃ why, parseImage (before ++ ln ++ cr ++ after) = .error (.invalidArgumentValue why)) ∧
    (m.status ≠ .running → ∃ why, m.loadImage (before ++ ln ++ cr ++ after) = .error (.invalidArgumentValue why)) ∧
    (m.status = .running → ∃ e, m.loadImage (before ++ ln ++ cr ++ after) = .error e)

/-- R76: a delivered value is written as decimal digits that denote it, with no leading zero, and one newline; values
in delivery order. -/
def Obligations.OutputIsRenderedInDecimal : Prop :=
  ∀ (c : Config) (m : ArchState c) (v : c.Word),
    (∃ digits : List Char, renderValue v = digits ++ ['\n'] ∧ digits ≠ [] ∧
      decimalValue 0 digits = some v.toNat ∧ (digits.head? = some '0' → digits = ['0'])) ∧
    (m.emit v).render = m.render ++ renderValue v

/-! ### Assembly text (30_encoding.md section 4) -/

/-- R90, R91: the written form of every well-formed instruction reads back as it, and a program of statements
separated by `;` or new lines assembles to their encodings in order. That a program may also end each statement with
`;`, the last one too, rests on the model's choice that an empty statement is no instruction (log entry 10). -/
def Obligations.AssemblyReadsBack : Prop :=
  (∀ i : Instr, i.wf = true → parseStatement (asmText i) = some i) ∧
  (∀ (i : Instr) (more : List (Char × Instr)), i.wf = true →
    (∀ p ∈ more, (p.1 = ';' ∨ p.1 = '\n') ∧ p.2.wf = true) →
    assemble (asmText i ++ more.flatMap (fun p => p.1 :: asmText p.2)) =
      some (encode i ++ more.flatMap (fun p => encode p.2))) ∧
  (∀ is : List Instr, (∀ i ∈ is, i.wf = true) →
    assemble (is.flatMap (fun i => asmText i ++ [';'])) = some (is.flatMap encode))

/-! ### Placing an instruction -/

/-- The model's own (log entry 6): a table word placed at ip is what the next step runs, and nothing but the code, its
length, the status and the fault record differs from the state before. -/
def Obligations.PlacedWordIsRunNext : Prop :=
  ∀ (c : Config) (m : ArchState c) (nbits w : Nat) (i : Instr), decodeTableWord nbits w = some i →
    m.ip.toNat + 3 < 2 ^ c.bits → Memory.wf m.code = true →
    ∃ t : ArchState c, State.withFetchWord ⟨c, m⟩ nbits w = ⟨c, t⟩ ∧ step ⟨c, t⟩ = exec i ⟨c, t⟩ ∧
      t.x = m.x ∧ t.ip = m.ip ∧ t.stack = m.stack ∧ t.out = m.out ∧ t.status = .running ∧
      ∀ a : Nat, (a < m.ip.toNat ∨ m.ip.toNat + 3 ≤ a) → Memory.read t.code a = Memory.read m.code a
end

