-- ==== Sys2Proof/Laws/Decode.lean ====
section
/-! SUPPORT. The opcode map and the decoder, each unfolded once. -/

namespace Sys2Proof

/-- An opcode's byte names that opcode: no two rows share a byte. -/
@[simp] theorem opcodeOfByte_byte (op : Opcode) : opcodeOfByte op.byte = some op := by
  cases op <;> decide

/-- A byte that names an opcode is its byte. -/
theorem byte_of_opcodeOfByte {b : Byte} {op : Opcode} (h : opcodeOfByte b = some op) : op.byte = b := by
  have := List.find?_some h
  simpa using this

/-- A register field names a register exactly when it is below 8. -/
theorem namesRegister_iff (v : Byte) : namesRegister v = true ↔ v.toNat < 8 := by
  simp [namesRegister, BitVec.lt_def]

/-- The fields of an instruction are all in range exactly when there is no bad one. -/
theorem firstBadField_none (i : Instr) : i.firstBadField = none ↔ i.wf = true := by
  simp [Instr.firstBadField, Instr.wf]

/-- What the field check can do. -/
theorem checkFields_cases (i : Instr) :
    (i.wf = true ∧ checkFields i = .ok i) ∨
    (∃ v, i.firstBadField = some v ∧ checkFields i = .error (.registerOutOfRange v)) := by
  cases h : i.firstBadField with
  | none => exact .inl ⟨(firstBadField_none i).mp h, by simp [checkFields, h]⟩
  | some v => exact .inr ⟨v, rfl, by simp [checkFields, h]⟩

/-- What the decoder can do on an opcode byte and the bytes after it. -/
theorem decode_cases (op : Byte) (rest : List Byte) :
    (opcodeOfByte op = none ∧ decode (op :: rest) = .error (.invalidInstruction op)) ∨
    (∃ o, opcodeOfByte op = some o ∧ rest.length < o.format.operandBytes ∧
      decode (op :: rest) = .error .truncatedInstruction) ∨
    (∃ o, opcodeOfByte op = some o ∧ o.format.operandBytes ≤ rest.length ∧
      decode (op :: rest) = checkFields (buildInstr o (rest.getD 0 0) (rest.getD 1 0))) := by
  cases h : opcodeOfByte op with
  | none => exact .inl ⟨rfl, by simp [decode, h]⟩
  | some o =>
    by_cases hl : rest.length < o.format.operandBytes
    · exact .inr (.inl ⟨o, rfl, hl, by simp only [decode, h, hl, if_true]⟩)
    · exact .inr (.inr ⟨o, rfl, Nat.le_of_not_lt hl, by simp only [decode, h, hl, if_false]⟩)

/-- The opcode of a built instruction. -/
@[simp] theorem opcode_buildInstr (o : Opcode) (o1 o2 : Byte) : (buildInstr o o1 o2).opcode = o := by
  cases o <;> rfl

end Sys2Proof
end

