-- ==== Sys2Proof/Laws/State.lean ====
section
/-! SUPPORT. What each update leaves in each field: true by rfl, tagged simp, so that no proof unfolds an update. -/

namespace Sys2Proof.Machine

variable {c : Config} (m : ArchState c)

/-! ### setIp -/
@[simp] theorem setIp_x (t : c.Word) : (m.setIp t).x = m.x := rfl
@[simp] theorem setIp_ip (t : c.Word) : (m.setIp t).ip = t := rfl
@[simp] theorem setIp_status (t : c.Word) : (m.setIp t).status = m.status := rfl
@[simp] theorem setIp_fault (t : c.Word) : (m.setIp t).fault = m.fault := rfl
@[simp] theorem setIp_stack (t : c.Word) : (m.setIp t).stack = m.stack := rfl
@[simp] theorem setIp_codeLen (t : c.Word) : (m.setIp t).codeLen = m.codeLen := rfl
@[simp] theorem setIp_code (t : c.Word) : (m.setIp t).code = m.code := rfl
@[simp] theorem setIp_out (t : c.Word) : (m.setIp t).out = m.out := rfl
@[simp] theorem setIp_reg (t : c.Word) (k : Fin 8) : (m.setIp t).reg k = m.reg k := rfl
@[simp] theorem setIp_setIp (t u : c.Word) : (m.setIp t).setIp u = m.setIp u := rfl
@[simp] theorem setIp_stackFull (t : c.Word) : (m.setIp t).stackFull = m.stackFull := rfl

/-! ### setReg -/
@[simp] theorem setReg_x (k : Fin 8) (v : c.Word) : (m.setReg k v).x = m.x.set k.val v k.isLt := rfl
@[simp] theorem setReg_ip (k : Fin 8) (v : c.Word) : (m.setReg k v).ip = m.ip := rfl
@[simp] theorem setReg_status (k : Fin 8) (v : c.Word) : (m.setReg k v).status = m.status := rfl
@[simp] theorem setReg_fault (k : Fin 8) (v : c.Word) : (m.setReg k v).fault = m.fault := rfl
@[simp] theorem setReg_stack (k : Fin 8) (v : c.Word) : (m.setReg k v).stack = m.stack := rfl
@[simp] theorem setReg_codeLen (k : Fin 8) (v : c.Word) : (m.setReg k v).codeLen = m.codeLen := rfl
@[simp] theorem setReg_code (k : Fin 8) (v : c.Word) : (m.setReg k v).code = m.code := rfl
@[simp] theorem setReg_out (k : Fin 8) (v : c.Word) : (m.setReg k v).out = m.out := rfl

/-- Reading the register just written. -/
@[simp] theorem reg_setReg_same (k : Fin 8) (v : c.Word) : (m.setReg k v).reg k = v := by
  simp [ArchState.reg, ArchState.setReg, Vector.get_eq_getElem]

/-- Reading another register. -/
theorem reg_setReg_other {j k : Fin 8} (h : j ≠ k) (v : c.Word) : (m.setReg k v).reg j = m.reg j := by
  have hv : k.val ≠ j.val := fun e => h (Fin.ext e.symm)
  simp [ArchState.reg, ArchState.setReg, Vector.get_eq_getElem, hv]

/-- A register as an element of the register file. -/
theorem reg_eq_getElem (k : Fin 8) : m.reg k = m.x[k.val] := rfl

/-! ### halt, emit -/
@[simp] theorem halt_x : m.halt.x = m.x := rfl
@[simp] theorem halt_ip : m.halt.ip = m.ip := rfl
@[simp] theorem halt_status : m.halt.status = .halted := rfl
@[simp] theorem halt_fault : m.halt.fault = m.fault := rfl
@[simp] theorem halt_stack : m.halt.stack = m.stack := rfl
@[simp] theorem halt_codeLen : m.halt.codeLen = m.codeLen := rfl
@[simp] theorem halt_code : m.halt.code = m.code := rfl
@[simp] theorem halt_out : m.halt.out = m.out := rfl
@[simp] theorem emit_x (v : c.Word) : (m.emit v).x = m.x := rfl
@[simp] theorem emit_ip (v : c.Word) : (m.emit v).ip = m.ip := rfl
@[simp] theorem emit_status (v : c.Word) : (m.emit v).status = m.status := rfl
@[simp] theorem emit_fault (v : c.Word) : (m.emit v).fault = m.fault := rfl
@[simp] theorem emit_stack (v : c.Word) : (m.emit v).stack = m.stack := rfl
@[simp] theorem emit_codeLen (v : c.Word) : (m.emit v).codeLen = m.codeLen := rfl
@[simp] theorem emit_code (v : c.Word) : (m.emit v).code = m.code := rfl
@[simp] theorem emit_out (v : c.Word) : (m.emit v).out = m.out ++ [v] := rfl

/-! ### enterFault -/
@[simp] theorem enterFault_x (f : Raise) : (m.enterFault f).x = m.x := rfl
@[simp] theorem enterFault_ip (f : Raise) : (m.enterFault f).ip = m.ip := rfl
@[simp] theorem enterFault_status (f : Raise) : (m.enterFault f).status = .faulted := rfl
@[simp] theorem enterFault_fault (f : Raise) :
    (m.enterFault f).fault = some { kind := f.kind, addr := m.ip, info := f.info } := rfl
@[simp] theorem enterFault_stack (f : Raise) : (m.enterFault f).stack = m.stack := rfl
@[simp] theorem enterFault_codeLen (f : Raise) : (m.enterFault f).codeLen = m.codeLen := rfl
@[simp] theorem enterFault_code (f : Raise) : (m.enterFault f).code = m.code := rfl
@[simp] theorem enterFault_out (f : Raise) : (m.enterFault f).out = m.out := rfl

/-! ### resetInput, placeAtIp -/
@[simp] theorem resetInput_x : m.resetInput.x = Vector.replicate 8 0 := rfl
@[simp] theorem resetInput_ip : m.resetInput.ip = 0 := rfl
@[simp] theorem resetInput_status : m.resetInput.status = .idle := rfl
@[simp] theorem resetInput_fault : m.resetInput.fault = none := rfl
@[simp] theorem resetInput_stack : m.resetInput.stack = [] := rfl
@[simp] theorem resetInput_codeLen : m.resetInput.codeLen = m.codeLen := rfl
@[simp] theorem resetInput_code : m.resetInput.code = m.code := rfl
@[simp] theorem resetInput_out : m.resetInput.out = [] := rfl
@[simp] theorem placeAtIp_x (bs : List Byte) : (m.placeAtIp bs).x = m.x := rfl
@[simp] theorem placeAtIp_ip (bs : List Byte) : (m.placeAtIp bs).ip = m.ip := rfl
@[simp] theorem placeAtIp_status (bs : List Byte) : (m.placeAtIp bs).status = .running := rfl
@[simp] theorem placeAtIp_fault (bs : List Byte) : (m.placeAtIp bs).fault = none := rfl
@[simp] theorem placeAtIp_stack (bs : List Byte) : (m.placeAtIp bs).stack = m.stack := rfl
@[simp] theorem placeAtIp_code (bs : List Byte) : (m.placeAtIp bs).code = Memory.writeBytes m.code m.ip.toNat bs := rfl
@[simp] theorem placeAtIp_out (bs : List Byte) : (m.placeAtIp bs).out = m.out := rfl

/-- What the run command does, said once (R37). -/
theorem runCommand_cases :
    (m.status = .idle ∧ m.runCommand = { m with status := .running }) ∨ (m.status ≠ .idle ∧ m.runCommand = m) := by
  by_cases h : m.status = .idle
  · exact .inl ⟨h, by simp [ArchState.runCommand, h]⟩
  · exact .inr ⟨h, by simp [ArchState.runCommand, h]⟩

end Sys2Proof.Machine
end

