-- ==== Sys2Proof/Laws/Ops.lean ====
section
/-! SUPPORT. One lemma per shared operation that says everything it can do; the provers cite these instead of
unfolding the operations. -/

namespace Sys2Proof.Machine

variable {c : Config} (m : ArchState c)

/-! ### Operands -/

/-- A field below 8 names that register. -/
theorem regOfField_lt {r : Byte} (h : r.toNat < 8) : regOfField r = .ok ⟨r.toNat, h⟩ := by
  simp [regOfField, h]

/-- A field of 8 or more raises RegisterOutOfRange. -/
theorem regOfField_ge {r : Byte} (h : 8 ≤ r.toNat) :
    regOfField r = .error { kind := .registerOutOfRange, info := r } := by
  simp [regOfField, Nat.not_lt.mpr h]

/-- Every width is at least a byte (R8). -/
theorem eight_le_bits (c : Config) : 8 ≤ c.bits := by
  cases h : c.wordSize <;> simp [Config.bits, h, WordSize.bits]

/-- Zero extension keeps the value. -/
theorem zextWord_toNat (b : Byte) : (zextWord b : c.Word).toNat = b.toNat := by
  have := Nat.pow_le_pow_right (n := 2) (by decide) (eight_le_bits c)
  have hb := b.isLt
  simp only [zextWord, BitVec.toNat_setWidth]
  exact Nat.mod_eq_of_lt (by omega)

/-- Truncation keeps the value mod 256. -/
theorem truncByte_toNat {w : Nat} (v : Word w) : (truncByte v).toNat = v.toNat % 256 := by
  simp [truncByte, BitVec.toNat_setWidth]

/-! ### The stack -/

/-- The stack is full exactly when STACK_CAP is finite and equal to the depth. -/
theorem stackFull_iff : m.stackFull = true ↔ c.stackCap = .entries m.stack.length := by
  cases h : c.stackCap <;> simp [ArchState.stackFull, h, eq_comm]

/-- What `StackPush` can do. -/
theorem stackPush_cases (b : Byte) :
    (c.stackCap = .entries m.stack.length ∧ m.stackPush b = .error { kind := .stackOverflow, info := 0 }) ∨
    (c.stackCap ≠ .entries m.stack.length ∧ m.stackPush b = .ok { m with stack := b :: m.stack }) := by
  by_cases h : m.stackFull = true
  · exact .inl ⟨(stackFull_iff m).mp h, by simp [ArchState.stackPush, h]⟩
  · exact .inr ⟨fun e => h ((stackFull_iff m).mpr e), by simp [ArchState.stackPush, h]⟩

/-- What `StackPop` can do. -/
theorem stackPop_cases :
    (m.stack = [] ∧ m.stackPop = .error { kind := .stackUnderflow, info := 0 }) ∨
    (∃ b rest, m.stack = b :: rest ∧ m.stackPop = .ok (b, { m with stack := rest })) := by
  cases h : m.stack with
  | nil => exact .inl ⟨rfl, by simp [ArchState.stackPop, h]⟩
  | cons b rest => exact .inr ⟨b, rest, rfl, by simp [ArchState.stackPop, h]⟩

/-! ### Advance and the surrounding of a rule -/

/-- What the advance can do. -/
theorem advance_cases :
    (m.ip = Word.top c.bits ∧ m.advance = .error { kind := .ipOverflow, info := 0 }) ∨
    (m.ip ≠ Word.top c.bits ∧ m.advance = .ok (m.setIp (m.ip + 1))) := by
  by_cases h : m.ip = Word.top c.bits
  · exact .inl ⟨h, by simp [ArchState.advance, h]⟩
  · exact .inr ⟨h, by simp [ArchState.advance, h]⟩

/-- What the rest of a step can do once an instruction is decoded: the rule raises, the advance raises, or neither. -/
theorem runRule_cases (n : Nat) (rule : ArchState c → Except Raise (ArchState c)) :
    (∃ f, rule (m.setIp (m.ip + BitVec.ofNat c.bits n)) = .error f ∧ m.runRule n rule = m.enterFault f) ∨
    (∃ u, rule (m.setIp (m.ip + BitVec.ofNat c.bits n)) = .ok u ∧ u.ip = Word.top c.bits ∧
      m.runRule n rule = m.enterFault { kind := .ipOverflow, info := 0 }) ∨
    (∃ u, rule (m.setIp (m.ip + BitVec.ofNat c.bits n)) = .ok u ∧ u.ip ≠ Word.top c.bits ∧
      m.runRule n rule = u.setIp (u.ip + 1)) := by
  cases h : rule (m.setIp (m.ip + BitVec.ofNat c.bits n)) with
  | error f => exact .inl ⟨f, rfl, by simp [ArchState.runRule, h]⟩
  | ok u =>
    rcases advance_cases u with ⟨ht, ha⟩ | ⟨ht, ha⟩
    · exact .inr (.inl ⟨u, rfl, ht, by simp [ArchState.runRule, h, ha]⟩)
    · exact .inr (.inr ⟨u, rfl, ht, by simp [ArchState.runRule, h, ha]⟩)

/-- The rule raises. -/
theorem runRule_error {n : Nat} {rule : ArchState c → Except Raise (ArchState c)} {f : Raise}
    (h : rule (m.setIp (m.ip + BitVec.ofNat c.bits n)) = .error f) : m.runRule n rule = m.enterFault f := by
  simp [ArchState.runRule, h]

/-- The rule succeeds and the advance raises. -/
theorem runRule_top {n : Nat} {rule : ArchState c → Except Raise (ArchState c)} {u : ArchState c}
    (h : rule (m.setIp (m.ip + BitVec.ofNat c.bits n)) = .ok u) (ht : u.ip = Word.top c.bits) :
    m.runRule n rule = m.enterFault { kind := .ipOverflow, info := 0 } := by
  simp [ArchState.runRule, h, ArchState.advance, ht]

/-- The rule and the advance succeed. -/
theorem runRule_ok {n : Nat} {rule : ArchState c → Except Raise (ArchState c)} {u : ArchState c}
    (h : rule (m.setIp (m.ip + BitVec.ofNat c.bits n)) = .ok u) (ht : u.ip ≠ Word.top c.bits) :
    m.runRule n rule = u.setIp (u.ip + 1) := by
  simp [ArchState.runRule, h, ArchState.advance, ht]

/-! ### Fetch -/

/-- A fetched byte is the code byte at its address, and the code reaches it. -/
theorem codeFrom_getElem? (a n k : Nat) :
    (m.codeFrom a n)[k]? =
      if k < n ∧ a + k < m.codeLen.toNat then some (Memory.read m.code (a + k)) else none := by
  induction n generalizing a k with
  | zero => simp [ArchState.codeFrom]
  | succ n ih =>
    by_cases ha : a < m.codeLen.toNat
    · cases k with
      | zero => simp [ArchState.codeFrom, ha]
      | succ k =>
        simp only [ArchState.codeFrom, ha, if_true, List.getElem?_cons_succ, ih]
        rw [show a + 1 + k = a + (k + 1) by omega]
        simp
    · have : ¬ a + k < m.codeLen.toNat := by omega
      simp [ArchState.codeFrom, ha, this]

/-- What the core does next, by status and ip. -/
theorem action_cases :
    (m.status ≠ .running ∧ m.action = .stay) ∨
    (m.status = .running ∧ m.codeLen.toNat ≤ m.ip.toNat ∧ m.action = .endOfCode) ∨
    (m.status = .running ∧ m.ip.toNat < m.codeLen.toNat ∧
      ((∃ i, decode (m.codeFrom m.ip.toNat maxInstrBytes) = .ok i ∧ m.action = .run i) ∨
       (∃ e, decode (m.codeFrom m.ip.toNat maxInstrBytes) = .error e ∧ m.action = .raise (raiseOfDecodeError e)))) := by
  by_cases hs : m.status = .running
  · by_cases hi : m.ip.toNat < m.codeLen.toNat
    · refine .inr (.inr ⟨hs, hi, ?_⟩)
      cases hd : decode (m.codeFrom m.ip.toNat maxInstrBytes) with
      | ok i => exact .inl ⟨i, rfl, by simp [ArchState.action, hs, hi, hd]⟩
      | error e => exact .inr ⟨e, rfl, by simp [ArchState.action, hs, hi, hd]⟩
    · exact .inr (.inl ⟨hs, by omega, by simp [ArchState.action, hs, hi]⟩)
  · exact .inl ⟨hs, by simp [ArchState.action, hs]⟩

end Sys2Proof.Machine
end

