-- ==== Sys2Proof/Laws/Fetch.lean ====
section
/-! SUPPORT. The fetch in terms of the code bytes from ip on. -/

namespace Sys2Proof.Machine

variable {c : Config} (m : ArchState c)

/-- There is no byte exactly from CODE_LEN on. -/
theorem byteAt_none (k : Nat) : m.byteAt k = none ↔ m.codeLen.toNat ≤ m.ip.toNat + k := by
  simp [ArchState.byteAt]

/-- A fetch gives at most the bytes asked for. -/
theorem codeFrom_length_le (a n : Nat) : (m.codeFrom a n).length ≤ n := by
  induction n generalizing a with
  | zero => simp [ArchState.codeFrom]
  | succ n ih =>
    simp only [ArchState.codeFrom]
    split
    · simpa using ih (a + 1)
    · simp

/-- What is fetched at ip is the opcode byte and the one or two bytes after it, as far as the code reaches. -/
theorem codeFrom_ip {op : Byte} (h0 : m.byteAt 0 = some op) :
    m.codeFrom m.ip.toNat maxInstrBytes = op :: ((m.byteAt 1).toList ++ (m.byteAt 2).toList) := by
  have h12 : m.byteAt 1 = none → m.byteAt 2 = none := by
    rw [byteAt_none, byteAt_none]; omega
  have hk : ∀ k, k < 3 → (m.codeFrom m.ip.toNat maxInstrBytes)[k]? = m.byteAt k := by
    intro k hk
    rw [codeFrom_getElem?]
    simp [ArchState.byteAt, maxInstrBytes, hk]
  apply List.ext_getElem?
  intro k
  match k with
  | 0 => rw [hk 0 (by decide), h0]; rfl
  | 1 =>
    rw [hk 1 (by decide)]
    cases e1 : m.byteAt 1 with
    | none => simp [h12 e1]
    | some b => simp
  | 2 =>
    rw [hk 2 (by decide)]
    cases e1 : m.byteAt 1 with
    | none => simp [h12 e1]
    | some b => cases e2 : m.byteAt 2 <;> simp
  | n + 3 =>
    rw [List.getElem?_eq_none, List.getElem?_eq_none]
    · cases m.byteAt 1 <;> cases m.byteAt 2 <;> simp
    · have := codeFrom_length_le m m.ip.toNat maxInstrBytes
      simp only [maxInstrBytes] at this ⊢
      omega

/-- An address inside the code is not the top: the increment after an instruction that does not write ip cannot
overflow (R121: "every other instruction leaves ip = e <= CODE_LEN - 1 <= 2^W - 2"). -/
theorem ip_add_ne_top {k : Nat} (h : m.byteAt k ≠ none) :
    m.ip + BitVec.ofNat c.bits k ≠ Word.top c.bits := by
  rw [Ne, byteAt_none] at h
  intro e
  have ht := congrArg BitVec.toNat e
  have hl := m.codeLen.isLt
  simp only [BitVec.toNat_add, BitVec.toNat_ofNat, BitVec.toNat_allOnes] at ht
  rw [Nat.mod_eq_of_lt (a := k) (by omega), Nat.mod_eq_of_lt (by omega)] at ht
  omega

end Sys2Proof.Machine
end

