-- ==== Sys2Proof/Laws/Memory.lean ====
section
/-! SUPPORT. Code memory: reads and writes, and that every memory operation keeps the canonical form. -/

namespace Sys2Proof.Machine

/-- The canonical form as a proposition. -/
theorem Memory.wf_iff (mem : Memory) :
    Memory.wf mem = true ↔
      mem.Pairwise (fun p q => p.1 < q.1) ∧ ∀ p ∈ mem, p.2 ≠ Memory.unlisted := by
  simp [Memory.wf]

/-- An address below every listed one reads as unlisted. -/
theorem Memory.read_of_lt {mem : Memory} {a : Nat} (h : ∀ p ∈ mem, a < p.1) :
    Memory.read mem a = Memory.unlisted := by
  induction mem with
  | nil => rfl
  | cons p rest ih =>
    have hp : p.1 ≠ a := Nat.ne_of_gt (h p (by simp))
    simp only [Memory.read, hp, if_false]
    exact ih fun q hq => h q (by simp [hq])

/-- The tail of a canonical memory is canonical, and lies above the head. -/
theorem Memory.wf_cons {p : Host.Cell} {rest : Memory} :
    Memory.wf (p :: rest) = true ↔
      (∀ q ∈ rest, p.1 < q.1) ∧ p.2 ≠ Memory.unlisted ∧ Memory.wf rest = true := by
  simp only [Memory.wf_iff, List.pairwise_cons, List.mem_cons, forall_eq_or_imp]
  tauto

/-- Every address listed after a write was listed before, or is the address written. -/
theorem Memory.mem_write {mem : Memory} {a : Nat} {b : Byte} {q : Host.Cell} (h : q ∈ Memory.write mem a b) :
    q ∈ mem ∨ q = (a, b) := by
  induction mem with
  | nil =>
    simp only [Memory.write] at h
    split at h <;> simp_all
  | cons p rest ih =>
    simp only [Memory.write] at h
    split at h
    · split at h <;> (simp_all; try tauto)
    · split at h
      · split at h <;> (simp_all; try tauto)
      · rcases List.mem_cons.mp h with e | e
        · exact .inl (by simp [e])
        · rcases ih e with e' | e'
          · exact .inl (by simp [e'])
          · exact .inr e'

/-- A write keeps the canonical form. -/
theorem Memory.write_wf {mem : Memory} (h : Memory.wf mem = true) (a : Nat) (b : Byte) :
    Memory.wf (Memory.write mem a b) = true := by
  induction mem with
  | nil =>
    by_cases hb : b = Memory.unlisted <;> simp [Memory.write, hb, Memory.wf]
  | cons p rest ih =>
    obtain ⟨hlt, hne, hw⟩ := Memory.wf_cons.mp h
    simp only [Memory.write]
    split
    · rename_i hap
      split
      · exact h
      · rename_i hb
        refine Memory.wf_cons.mpr ⟨?_, hb, h⟩
        intro q hq
        rcases List.mem_cons.mp hq with e | e
        · exact e ▸ hap
        · exact Nat.lt_trans hap (hlt q e)
    · split
      · rename_i hap
        split
        · exact hw
        · rename_i hb
          exact Memory.wf_cons.mpr ⟨fun q hq => hap ▸ hlt q hq, hb, hw⟩
      · rename_i h1 h2
        refine Memory.wf_cons.mpr ⟨?_, hne, ih hw⟩
        intro q hq
        rcases Memory.mem_write hq with e | e
        · exact hlt q e
        · subst e; exact Nat.lt_of_le_of_ne (Nat.le_of_not_lt h1) (Ne.symm h2)

/-- A read of the address just written gives the byte written. -/
theorem Memory.read_write_same {mem : Memory} (h : Memory.wf mem = true) (a : Nat) (b : Byte) :
    Memory.read (Memory.write mem a b) a = b := by
  induction mem with
  | nil =>
    by_cases hb : b = Memory.unlisted <;> simp [Memory.write, hb, Memory.read]
  | cons p rest ih =>
    obtain ⟨hlt, hne, hw⟩ := Memory.wf_cons.mp h
    simp only [Memory.write]
    split
    · rename_i hap
      split
      · rename_i hb
        rw [hb]
        refine Memory.read_of_lt fun q hq => ?_
        rcases List.mem_cons.mp hq with e | e
        · exact e ▸ hap
        · exact Nat.lt_trans hap (hlt q e)
      · simp [Memory.read]
    · split
      · rename_i hap
        split
        · rename_i hb
          rw [hb]
          exact Memory.read_of_lt fun q hq => hap ▸ hlt q hq
        · simp [Memory.read]
      · rename_i h1 h2
        simp only [Memory.read, Ne.symm h2, if_false]
        exact ih hw

/-- A write leaves every other address as it was. -/
theorem Memory.read_write_other {mem : Memory} (a : Nat) (b : Byte) {a' : Nat} (hne : a' ≠ a)
    (h : Memory.wf mem = true) : Memory.read (Memory.write mem a b) a' = Memory.read mem a' := by
  induction mem with
  | nil =>
    by_cases hb : b = Memory.unlisted <;> simp [Memory.write, hb, Memory.read, Ne.symm hne]
  | cons p rest ih =>
    obtain ⟨hlt, -, hw⟩ := Memory.wf_cons.mp h
    simp only [Memory.write]
    split
    · split
      · rfl
      · simp [Memory.read, Ne.symm hne]
    · split
      · rename_i hap
        have hp : p.1 ≠ a' := fun e => hne (e ▸ hap ▸ rfl)
        split <;> simp [Memory.read, Ne.symm hne, hp]
      · simp only [Memory.read]
        rw [ih hw]

/-- Writing a run of bytes keeps the canonical form. -/
theorem Memory.writeBytes_wf {mem : Memory} (h : Memory.wf mem = true) (a : Nat) (bs : List Byte) :
    Memory.wf (Memory.writeBytes mem a bs) = true := by
  induction bs generalizing mem a with
  | nil => exact h
  | cons b rest ih => exact ih (Memory.write_wf h a b) (a + 1)

/-- Writing a run of bytes leaves the addresses below it as they were. -/
theorem Memory.read_writeBytes_below {mem : Memory} (h : Memory.wf mem = true) (a : Nat) (bs : List Byte) {a' : Nat}
    (hlt : a' < a) : Memory.read (Memory.writeBytes mem a bs) a' = Memory.read mem a' := by
  induction bs generalizing mem a with
  | nil => rfl
  | cons b rest ih =>
    have := ih (Memory.write_wf h a b) (a + 1) (by omega)
    rw [Memory.writeBytes, this, Memory.read_write_other a b (by omega) h]

/-- Writing a run of bytes puts each at its place. -/
theorem Memory.read_writeBytes {mem : Memory} (h : Memory.wf mem = true) (a : Nat) (bs : List Byte) (k : Nat)
    (hk : k < bs.length) : Memory.read (Memory.writeBytes mem a bs) (a + k) = bs[k] := by
  induction bs generalizing mem a k with
  | nil => simp at hk
  | cons b rest ih =>
    cases k with
    | zero =>
      rw [Memory.writeBytes, Nat.add_zero, Memory.read_writeBytes_below (Memory.write_wf h a b) _ _ (by omega)]
      exact Memory.read_write_same h a b
    | succ j =>
      have := ih (Memory.write_wf h a b) (a + 1) j (by simpa using hk)
      rw [Memory.writeBytes, show a + (j + 1) = a + 1 + j by omega, this]
      rfl

/-- Every address `ofBytes` lists lies inside the bytes. -/
theorem Memory.mem_ofBytes {a : Nat} {bs : List Byte} {q : Host.Cell} (h : q ∈ Memory.ofBytes a bs) :
    a ≤ q.1 ∧ q.1 < a + bs.length := by
  induction bs generalizing a with
  | nil => simp [Memory.ofBytes] at h
  | cons b rest ih =>
    simp only [Memory.ofBytes] at h
    split at h
    · have := ih h
      simp only [List.length_cons]; omega
    · rcases List.mem_cons.mp h with e | e
      · simp [e]
      · have := ih e
        simp only [List.length_cons]; omega

/-- The memory of a byte list is in canonical form. -/
theorem Memory.ofBytes_wf (a : Nat) (bs : List Byte) : Memory.wf (Memory.ofBytes a bs) = true := by
  induction bs generalizing a with
  | nil => rfl
  | cons b rest ih =>
    simp only [Memory.ofBytes]
    split
    · exact ih (a + 1)
    · rename_i hb
      exact Memory.wf_cons.mpr ⟨fun q hq => by have := Memory.mem_ofBytes hq; simp; omega, hb, ih (a + 1)⟩

/-- The memory of a byte list holds each byte at its place. -/
theorem Memory.read_ofBytes (a : Nat) (bs : List Byte) (k : Nat) (hk : k < bs.length) :
    Memory.read (Memory.ofBytes a bs) (a + k) = bs[k] := by
  induction bs generalizing a k with
  | nil => simp at hk
  | cons b rest ih =>
    cases k with
    | zero =>
      simp only [Memory.ofBytes, Nat.add_zero, List.getElem_cons_zero]
      split
      · rename_i hb
        rw [hb]
        exact Memory.read_of_lt fun q hq => by have := Memory.mem_ofBytes hq; omega
      · simp [Memory.read]
    | succ j =>
      have := ih (a + 1) j (by simpa using hk)
      rw [show a + (j + 1) = a + 1 + j by omega]
      simp only [Memory.ofBytes, List.getElem_cons_succ]
      split
      · exact this
      · have hne : a ≠ a + 1 + j := by omega
        simpa [Memory.read, hne] using this

/-- Reset memory, with nothing listed, is in canonical form. -/
theorem Memory.wf_nil : Memory.wf [] = true := rfl

end Sys2Proof.Machine
end

