-- ==== Sys2Proof/Laws/PerInstr.lean ====
section
/-! SUPPORT. A statement for every instruction, one lemma per constructor. Family EncodedSize: an instruction's
encoding is its opcode byte and as many operand bytes as its format has (R80, R81). -/

/-- The bytes of an instruction are as many as its size says, and the first is its opcode's. -/
def Sys2Proof.Laws.EncodedSize.Statement (i : Sys2Proof.Instr) : Prop :=
  (Sys2Proof.encode i).length = i.size ∧ (Sys2Proof.encode i).head? = some i.opcode.byte

namespace Sys2Proof.Laws.EncodedSize

theorem nop : Statement .nop := ⟨rfl, rfl⟩
theorem hlt : Statement .hlt := ⟨rfl, rfl⟩
theorem jmp (r : Byte) : Statement (.jmp r) := ⟨rfl, rfl⟩
theorem ret : Statement .ret := ⟨rfl, rfl⟩
theorem push (r : Byte) : Statement (.push r) := ⟨rfl, rfl⟩
theorem pop (r : Byte) : Statement (.pop r) := ⟨rfl, rfl⟩
theorem prn (r : Byte) : Statement (.prn r) := ⟨rfl, rfl⟩
theorem call (r : Byte) : Statement (.call r) := ⟨rfl, rfl⟩
theorem ldi (r imm : Byte) : Statement (.ldi r imm) := ⟨rfl, rfl⟩
theorem mul (ra rb : Byte) : Statement (.mul ra rb) := ⟨rfl, rfl⟩
theorem div (ra rb : Byte) : Statement (.div ra rb) := ⟨rfl, rfl⟩

end Sys2Proof.Laws.EncodedSize
end

