-- ==== Sys2Proof/Laws/Rules.lean ====
section
/-! SUPPORT. Each instruction's rule on fields that name registers and on fields that do not, and what every rule
leaves unchanged. -/

namespace Sys2Proof.Machine

variable {c : Config} (m : ArchState c)

/-! ### Fields in range -/

theorem prnRule_lt {r : Byte} (h : r.toNat < 8) : prnRule r m = .ok (m.emit (m.reg ⟨r.toNat, h⟩)) := by
  simp only [prnRule, regOfField_lt h]; rfl

theorem ldiRule_lt {r : Byte} (imm : Byte) (h : r.toNat < 8) :
    ldiRule r imm m = .ok (m.setReg ⟨r.toNat, h⟩ (zextWord imm)) := by
  simp only [ldiRule, regOfField_lt h]; rfl

theorem pushRule_lt {r : Byte} (h : r.toNat < 8) :
    pushRule r m = m.stackPush (truncByte (m.reg ⟨r.toNat, h⟩)) := by
  simp only [pushRule, regOfField_lt h]; rfl

theorem popRule_cons {r : Byte} (h : r.toNat < 8) {b : Byte} {rest : List Byte} (hs : m.stack = b :: rest) :
    popRule r m = .ok ({ m with stack := rest }.setReg ⟨r.toNat, h⟩ (zextWord b)) := by
  simp only [popRule, regOfField_lt h, ArchState.stackPop, hs]; rfl

theorem popRule_nil {r : Byte} (h : r.toNat < 8) (hs : m.stack = []) :
    popRule r m = .error { kind := .stackUnderflow, info := 0 } := by
  simp only [popRule, regOfField_lt h, ArchState.stackPop, hs]; rfl

theorem jmpRule_lt {r : Byte} (h : r.toNat < 8) : jmpRule r m = .ok (m.setIp (m.reg ⟨r.toNat, h⟩)) := by
  simp only [jmpRule, regOfField_lt h]; rfl

theorem callRule_room {r : Byte} (h : r.toNat < 8) (hc : c.stackCap ≠ .entries m.stack.length) :
    callRule r m =
      .ok ({ m with stack := truncByte (m.ip + 1) :: m.stack }.setIp (m.reg ⟨r.toNat, h⟩)) := by
  rcases stackPush_cases m (truncByte (m.ip + 1)) with ⟨hf, -⟩ | ⟨-, e⟩
  · exact absurd hf hc
  · simp only [callRule, regOfField_lt h, e]; rfl

theorem callRule_full {r : Byte} (h : r.toNat < 8) (hc : c.stackCap = .entries m.stack.length) :
    callRule r m = .error { kind := .stackOverflow, info := 0 } := by
  rcases stackPush_cases m (truncByte (m.ip + 1)) with ⟨-, e⟩ | ⟨hf, -⟩
  · simp only [callRule, regOfField_lt h, e]; rfl
  · exact absurd hc hf

theorem retRule_cons {b : Byte} {rest : List Byte} (hs : m.stack = b :: rest) :
    retRule m = .ok ({ m with stack := rest }.setIp (zextWord b)) := by
  simp only [retRule, ArchState.stackPop, hs]; rfl

theorem retRule_nil (hs : m.stack = []) : retRule m = .error { kind := .stackUnderflow, info := 0 } := by
  simp only [retRule, ArchState.stackPop, hs]; rfl

theorem mulRule_lt {ra rb : Byte} (ha : ra.toNat < 8) (hb : rb.toNat < 8) :
    mulRule ra rb m =
      .ok (m.setReg ⟨ra.toNat, ha⟩ (mulWord (m.reg ⟨ra.toNat, ha⟩) (m.reg ⟨rb.toNat, hb⟩))) := by
  simp only [mulRule, regOfField_lt ha, regOfField_lt hb]; rfl

theorem divRule_lt {ra rb : Byte} (ha : ra.toNat < 8) (hb : rb.toNat < 8) :
    divRule ra rb m =
      if m.reg ⟨rb.toNat, hb⟩ = 0 then .error { kind := .divideByZero, info := 0 }
      else .ok (m.setReg ⟨ra.toNat, ha⟩ (divWord (m.reg ⟨ra.toNat, ha⟩) (m.reg ⟨rb.toNat, hb⟩))) := by
  simp only [divRule, regOfField_lt ha, regOfField_lt hb]; rfl

/-- The product is the low W bits of the exact product. -/
theorem mulWord_toNat {w : Nat} (x y : Word w) : (mulWord x y).toNat = x.toNat * y.toNat % 2 ^ w := by
  simp [mulWord]

/-- The quotient fits: it is no larger than the dividend. -/
theorem divWord_toNat {w : Nat} (x y : Word w) : (divWord x y).toNat = x.toNat / y.toNat := by
  have := Nat.div_le_self x.toNat y.toNat
  have hx := x.isLt
  simp only [divWord, BitVec.toNat_ofNat]
  exact Nat.mod_eq_of_lt (by omega)

/-! ### All rules at once -/

/-- The rule `exec` runs for an instruction. -/
def ruleOf (i : Instr) (m : ArchState c) : Except Raise (ArchState c) :=
  match i with
  | .nop => nopRule m
  | .hlt => hltRule m
  | .jmp r => jmpRule r m
  | .ret => retRule m
  | .push r => pushRule r m
  | .pop r => popRule r m
  | .prn r => prnRule r m
  | .call r => callRule r m
  | .ldi r imm => ldiRule r imm m
  | .mul ra rb => mulRule ra rb m
  | .div ra rb => divRule ra rb m

/-- `exec` is the instruction's rule, surrounded by the rest of the step. -/
theorem exec_eq_runRule (i : Instr) :
    exec i ⟨c, m⟩ = .next ⟨c, m.runRule i.operandBytes (ruleOf i)⟩ := by
  cases i <;> rfl

/-- The instruction completes. -/
theorem exec_of_ok (i : Instr) {n : Nat} (hn : i.operandBytes = n) {u : ArchState c}
    (h : ruleOf i (m.setIp (m.ip + BitVec.ofNat c.bits n)) = .ok u) (ht : u.ip ≠ Word.top c.bits) :
    exec i ⟨c, m⟩ = .next ⟨c, u.setIp (u.ip + 1)⟩ := by
  subst hn
  rw [exec_eq_runRule, runRule_ok m h ht]

/-- The instruction's rule raises. -/
theorem exec_of_error (i : Instr) {n : Nat} (hn : i.operandBytes = n) {f : Raise}
    (h : ruleOf i (m.setIp (m.ip + BitVec.ofNat c.bits n)) = .error f) :
    exec i ⟨c, m⟩ = .next ⟨c, m.enterFault f⟩ := by
  subst hn
  rw [exec_eq_runRule, runRule_error m h]

/-- The increment is due at the top. -/
theorem exec_of_top (i : Instr) {n : Nat} (hn : i.operandBytes = n) {u : ArchState c}
    (h : ruleOf i (m.setIp (m.ip + BitVec.ofNat c.bits n)) = .ok u) (ht : u.ip = Word.top c.bits) :
    exec i ⟨c, m⟩ = .next ⟨c, m.enterFault { kind := .ipOverflow, info := 0 }⟩ := by
  subst hn
  rw [exec_eq_runRule, runRule_top m h ht]

/-! ### What a rule can do, said once -/

/-- What a successful rule of each instruction leaves. -/
def RuleResult (i : Instr) (m u : ArchState c) : Prop :=
  match i with
  | .nop => u = m
  | .hlt => u = m.halt
  | .prn r => ∃ h : r.toNat < 8, u = m.emit (m.reg ⟨r.toNat, h⟩)
  | .ldi r imm => ∃ h : r.toNat < 8, u = m.setReg ⟨r.toNat, h⟩ (zextWord imm)
  | .push r => ∃ h : r.toNat < 8, c.stackCap ≠ .entries m.stack.length ∧
      u = { m with stack := truncByte (m.reg ⟨r.toNat, h⟩) :: m.stack }
  | .pop r => ∃ (h : r.toNat < 8) (b : Byte) (rest : List Byte), m.stack = b :: rest ∧
      u = { m with stack := rest }.setReg ⟨r.toNat, h⟩ (zextWord b)
  | .jmp r => ∃ h : r.toNat < 8, u = m.setIp (m.reg ⟨r.toNat, h⟩)
  | .call r => ∃ h : r.toNat < 8, c.stackCap ≠ .entries m.stack.length ∧
      u = { m with stack := truncByte (m.ip + 1) :: m.stack }.setIp (m.reg ⟨r.toNat, h⟩)
  | .ret => ∃ (b : Byte) (rest : List Byte), m.stack = b :: rest ∧
      u = { m with stack := rest }.setIp (zextWord b)
  | .mul ra rb => ∃ (ha : ra.toNat < 8) (hb : rb.toNat < 8),
      u = m.setReg ⟨ra.toNat, ha⟩ (mulWord (m.reg ⟨ra.toNat, ha⟩) (m.reg ⟨rb.toNat, hb⟩))
  | .div ra rb => ∃ (ha : ra.toNat < 8) (hb : rb.toNat < 8), m.reg ⟨rb.toNat, hb⟩ ≠ 0 ∧
      u = m.setReg ⟨ra.toNat, ha⟩ (divWord (m.reg ⟨ra.toNat, ha⟩) (m.reg ⟨rb.toNat, hb⟩))

/-- What a rule of each instruction can raise, its register fields being in range (R201). -/
def RuleRaises (i : Instr) (m : ArchState c) (f : Raise) : Prop :=
  match i with
  | .push _ => c.stackCap = .entries m.stack.length ∧ f = { kind := .stackOverflow, info := 0 }
  | .call _ => c.stackCap = .entries m.stack.length ∧ f = { kind := .stackOverflow, info := 0 }
  | .pop _ => m.stack = [] ∧ f = { kind := .stackUnderflow, info := 0 }
  | .ret => m.stack = [] ∧ f = { kind := .stackUnderflow, info := 0 }
  | .div _ rb => (∃ hb : rb.toNat < 8, m.reg ⟨rb.toNat, hb⟩ = 0) ∧ f = { kind := .divideByZero, info := 0 }
  | .nop => False
  | .hlt => False
  | .prn _ => False
  | .ldi _ _ => False
  | .jmp _ => False
  | .mul _ _ => False

/-- A field of 8 or more names no register. -/
theorem namesRegister_ge {r : Byte} (h : 8 ≤ r.toNat) : namesRegister r = false := by
  rw [Bool.eq_false_iff, Ne, namesRegister_iff]; omega

/-- A rule either raises RegisterOutOfRange for the first bad field, or raises what its instruction can raise, or
succeeds with its instruction's result. -/
theorem ruleOf_cases (i : Instr) :
    (∃ v, i.firstBadField = some v ∧ ruleOf i m = .error { kind := .registerOutOfRange, info := v }) ∨
    (i.wf = true ∧ ∃ f, RuleRaises i m f ∧ ruleOf i m = .error f) ∨
    (i.wf = true ∧ ∃ u, RuleResult i m u ∧ ruleOf i m = .ok u) := by
  have good : ∀ {r : Byte}, r.toNat < 8 → namesRegister r = true := fun h => (namesRegister_iff _).mpr h
  cases i with
  | nop => exact .inr (.inr ⟨rfl, m, rfl, rfl⟩)
  | hlt => exact .inr (.inr ⟨rfl, m.halt, rfl, rfl⟩)
  | jmp r =>
    by_cases h : r.toNat < 8
    · exact .inr (.inr ⟨by simp [Instr.wf, Instr.regFields, good h], _, ⟨h, rfl⟩, jmpRule_lt m h⟩)
    · refine .inl ⟨r, by simp [Instr.firstBadField, Instr.regFields, namesRegister_ge (Nat.le_of_not_lt h)], ?_⟩
      simp only [ruleOf, jmpRule, regOfField_ge (Nat.le_of_not_lt h)]; rfl
  | ret =>
    cases hs : m.stack with
    | nil => exact .inr (.inl ⟨rfl, _, ⟨hs, rfl⟩, retRule_nil m hs⟩)
    | cons b rest => exact .inr (.inr ⟨rfl, _, ⟨b, rest, hs, rfl⟩, retRule_cons m hs⟩)
  | push r =>
    by_cases h : r.toNat < 8
    · have hw : (Instr.push r).wf = true := by simp [Instr.wf, Instr.regFields, good h]
      rcases stackPush_cases m (truncByte (m.reg ⟨r.toNat, h⟩)) with ⟨hc, e⟩ | ⟨hc, e⟩
      · exact .inr (.inl ⟨hw, _, ⟨hc, rfl⟩, (pushRule_lt m h).trans e⟩)
      · exact .inr (.inr ⟨hw, _, ⟨h, hc, rfl⟩, (pushRule_lt m h).trans e⟩)
    · refine .inl ⟨r, by simp [Instr.firstBadField, Instr.regFields, namesRegister_ge (Nat.le_of_not_lt h)], ?_⟩
      simp only [ruleOf, pushRule, regOfField_ge (Nat.le_of_not_lt h)]; rfl
  | pop r =>
    by_cases h : r.toNat < 8
    · have hw : (Instr.pop r).wf = true := by simp [Instr.wf, Instr.regFields, good h]
      cases hs : m.stack with
      | nil => exact .inr (.inl ⟨hw, _, ⟨hs, rfl⟩, popRule_nil m h hs⟩)
      | cons b rest => exact .inr (.inr ⟨hw, _, ⟨h, b, rest, hs, rfl⟩, popRule_cons m h hs⟩)
    · refine .inl ⟨r, by simp [Instr.firstBadField, Instr.regFields, namesRegister_ge (Nat.le_of_not_lt h)], ?_⟩
      simp only [ruleOf, popRule, regOfField_ge (Nat.le_of_not_lt h)]; rfl
  | prn r =>
    by_cases h : r.toNat < 8
    · exact .inr (.inr ⟨by simp [Instr.wf, Instr.regFields, good h], _, ⟨h, rfl⟩, prnRule_lt m h⟩)
    · refine .inl ⟨r, by simp [Instr.firstBadField, Instr.regFields, namesRegister_ge (Nat.le_of_not_lt h)], ?_⟩
      simp only [ruleOf, prnRule, regOfField_ge (Nat.le_of_not_lt h)]; rfl
  | call r =>
    by_cases h : r.toNat < 8
    · have hw : (Instr.call r).wf = true := by simp [Instr.wf, Instr.regFields, good h]
      by_cases hc : c.stackCap = .entries m.stack.length
      · exact .inr (.inl ⟨hw, _, ⟨hc, rfl⟩, callRule_full m h hc⟩)
      · exact .inr (.inr ⟨hw, _, ⟨h, hc, rfl⟩, callRule_room m h hc⟩)
    · refine .inl ⟨r, by simp [Instr.firstBadField, Instr.regFields, namesRegister_ge (Nat.le_of_not_lt h)], ?_⟩
      simp only [ruleOf, callRule, regOfField_ge (Nat.le_of_not_lt h)]; rfl
  | ldi r imm =>
    by_cases h : r.toNat < 8
    · exact .inr (.inr ⟨by simp [Instr.wf, Instr.regFields, good h], _, ⟨h, rfl⟩, ldiRule_lt m imm h⟩)
    · refine .inl ⟨r, by simp [Instr.firstBadField, Instr.regFields, namesRegister_ge (Nat.le_of_not_lt h)], ?_⟩
      simp only [ruleOf, ldiRule, regOfField_ge (Nat.le_of_not_lt h)]; rfl
  | mul ra rb =>
    by_cases ha : ra.toNat < 8
    · by_cases hb : rb.toNat < 8
      · exact .inr (.inr ⟨by simp [Instr.wf, Instr.regFields, good ha, good hb], _, ⟨ha, hb, rfl⟩, mulRule_lt m ha hb⟩)
      · refine .inl ⟨rb, by simp [Instr.firstBadField, Instr.regFields, good ha,
          namesRegister_ge (Nat.le_of_not_lt hb)], ?_⟩
        simp only [ruleOf, mulRule, regOfField_lt ha, regOfField_ge (Nat.le_of_not_lt hb)]; rfl
    · refine .inl ⟨ra, by simp [Instr.firstBadField, Instr.regFields, namesRegister_ge (Nat.le_of_not_lt ha)], ?_⟩
      simp only [ruleOf, mulRule, regOfField_ge (Nat.le_of_not_lt ha)]; rfl
  | div ra rb =>
    by_cases ha : ra.toNat < 8
    · by_cases hb : rb.toNat < 8
      · have hw : (Instr.div ra rb).wf = true := by simp [Instr.wf, Instr.regFields, good ha, good hb]
        by_cases hz : m.reg ⟨rb.toNat, hb⟩ = 0
        · exact .inr (.inl ⟨hw, _, ⟨⟨hb, hz⟩, rfl⟩, (divRule_lt m ha hb).trans (if_pos hz)⟩)
        · exact .inr (.inr ⟨hw, _, ⟨ha, hb, hz, rfl⟩, (divRule_lt m ha hb).trans (if_neg hz)⟩)
      · refine .inl ⟨rb, by simp [Instr.firstBadField, Instr.regFields, good ha,
          namesRegister_ge (Nat.le_of_not_lt hb)], ?_⟩
        simp only [ruleOf, divRule, regOfField_lt ha, regOfField_ge (Nat.le_of_not_lt hb)]; rfl
    · refine .inl ⟨ra, by simp [Instr.firstBadField, Instr.regFields, namesRegister_ge (Nat.le_of_not_lt ha)], ?_⟩
      simp only [ruleOf, divRule, regOfField_ge (Nat.le_of_not_lt ha)]; rfl

/-- What `exec` can do: a fault entry for a bad field, for what the rule raises, or for the increment at the top; or
the rule's result with ip advanced. -/
theorem exec_cases (i : Instr) :
    (∃ v, i.firstBadField = some v ∧
      exec i ⟨c, m⟩ = .next ⟨c, m.enterFault { kind := .registerOutOfRange, info := v }⟩) ∨
    (i.wf = true ∧ ∃ f, RuleRaises i (m.setIp (m.ip + BitVec.ofNat c.bits i.operandBytes)) f ∧
      exec i ⟨c, m⟩ = .next ⟨c, m.enterFault f⟩) ∨
    (i.wf = true ∧ ∃ u, RuleResult i (m.setIp (m.ip + BitVec.ofNat c.bits i.operandBytes)) u ∧
      ((u.ip = Word.top c.bits ∧
          exec i ⟨c, m⟩ = .next ⟨c, m.enterFault { kind := .ipOverflow, info := 0 }⟩) ∨
       (u.ip ≠ Word.top c.bits ∧ exec i ⟨c, m⟩ = .next ⟨c, u.setIp (u.ip + 1)⟩))) := by
  rcases ruleOf_cases (m.setIp (m.ip + BitVec.ofNat c.bits i.operandBytes)) i with
    ⟨v, hv, e⟩ | ⟨hw, f, hf, e⟩ | ⟨hw, u, hu, e⟩
  · exact .inl ⟨v, hv, exec_of_error m i rfl e⟩
  · exact .inr (.inl ⟨hw, f, hf, exec_of_error m i rfl e⟩)
  · refine .inr (.inr ⟨hw, u, hu, ?_⟩)
    by_cases ht : u.ip = Word.top c.bits
    · exact .inl ⟨ht, exec_of_top m i rfl e ht⟩
    · exact .inr ⟨ht, exec_of_ok m i rfl e ht⟩

/-- A successful rule never changes the code or the fault record. -/
theorem RuleResult_keeps_code_and_record {i : Instr} {u : ArchState c} (h : RuleResult i m u) :
    u.codeLen = m.codeLen ∧ u.code = m.code ∧ u.fault = m.fault := by
  cases i with
  | nop => cases h; exact ⟨rfl, rfl, rfl⟩
  | hlt => cases h; exact ⟨rfl, rfl, rfl⟩
  | jmp r => obtain ⟨_, rfl⟩ := h; exact ⟨rfl, rfl, rfl⟩
  | ret => obtain ⟨_, _, _, rfl⟩ := h; exact ⟨rfl, rfl, rfl⟩
  | push r => obtain ⟨_, _, rfl⟩ := h; exact ⟨rfl, rfl, rfl⟩
  | pop r => obtain ⟨_, _, _, _, rfl⟩ := h; exact ⟨rfl, rfl, rfl⟩
  | prn r => obtain ⟨_, rfl⟩ := h; exact ⟨rfl, rfl, rfl⟩
  | call r => obtain ⟨_, _, rfl⟩ := h; exact ⟨rfl, rfl, rfl⟩
  | ldi r imm => obtain ⟨_, rfl⟩ := h; exact ⟨rfl, rfl, rfl⟩
  | mul ra rb => obtain ⟨_, _, rfl⟩ := h; exact ⟨rfl, rfl, rfl⟩
  | div ra rb => obtain ⟨_, _, _, rfl⟩ := h; exact ⟨rfl, rfl, rfl⟩

end Sys2Proof.Machine
end

