-- ==== Sys2Proof/Laws/Step.lean ====
section
/-! SUPPORT. What a step can do, said once. -/

namespace Sys2Proof.Machine

variable {c : Config} (m : ArchState c)

/-- The four kinds of step: none, the end of the run at the end of the code, a decode fault, an instruction. -/
theorem step_cases :
    (m.status ≠ .running ∧ step ⟨c, m⟩ = .next ⟨c, m⟩) ∨
    (m.status = .running ∧ m.codeLen.toNat ≤ m.ip.toNat ∧ step ⟨c, m⟩ = .next ⟨c, m.halt⟩) ∨
    (∃ e, m.status = .running ∧ m.ip.toNat < m.codeLen.toNat ∧
      decode (m.codeFrom m.ip.toNat maxInstrBytes) = .error e ∧
      step ⟨c, m⟩ = .next ⟨c, m.enterFault (raiseOfDecodeError e)⟩) ∨
    (∃ i, m.status = .running ∧ m.ip.toNat < m.codeLen.toNat ∧
      decode (m.codeFrom m.ip.toNat maxInstrBytes) = .ok i ∧ step ⟨c, m⟩ = exec i ⟨c, m⟩) := by
  rcases action_cases m with ⟨hs, h⟩ | ⟨hs, hi, h⟩ | ⟨hs, hi, ⟨i, hd, h⟩ | ⟨e, hd, h⟩⟩
  · exact .inl ⟨hs, by simp [step, h]⟩
  · exact .inr (.inl ⟨hs, hi, by simp [step, h]⟩)
  · exact .inr (.inr (.inr ⟨i, hs, hi, hd, by simp [step, h]⟩))
  · exact .inr (.inr (.inl ⟨e, hs, hi, hd, by simp [step, h]⟩))

end Sys2Proof.Machine
end

