-- ==== Sys2Proof/Tests/Slice0.lean ====
section
/-! SUPPORT. The model's own tests, each against a value of the spec (95_test_vectors.md, or the rule named), and for
every obligation with hypotheses a witness that meets them. -/

namespace Sys2Proof.Tests.Slice0

open Sys2Proof Sys2Proof.Machine

/-! ### Ill-formed terms are refused (R83) -/

theorem test_wf_jmp_8 : (Instr.jmp 8).wf = false := by decide
theorem test_wf_push_255 : (Instr.push 255).wf = false := by decide
theorem test_wf_pop_8 : (Instr.pop 8).wf = false := by decide
theorem test_wf_prn_0x48 : (Instr.prn 0x48).wf = false := by decide
theorem test_wf_call_9 : (Instr.call 9).wf = false := by decide
theorem test_wf_ldi_8 : (Instr.ldi 8 0).wf = false := by decide
theorem test_wf_mul_ra : (Instr.mul 8 0).wf = false := by decide
theorem test_wf_mul_rb : (Instr.mul 0 8).wf = false := by decide
theorem test_wf_div_ra : (Instr.div 255 7).wf = false := by decide
theorem test_wf_div_rb : (Instr.div 7 255).wf = false := by decide
theorem test_wf_ldi_imm_free : (Instr.ldi 7 255).wf = true := by decide

/-! ### Decoding: every opcode's word written out from the binary column of R86 -/

theorem test_decode_nop : decode [0b00000000#8] = .ok .nop := by decide
theorem test_decode_hlt : decode [0b00000001#8] = .ok .hlt := by decide
theorem test_decode_jmp : decode [0b00000011#8, 0b00000010#8] = .ok (.jmp 2) := by decide
theorem test_decode_ret : decode [0b00010001#8] = .ok .ret := by decide
theorem test_decode_push : decode [0b01000101#8, 0b00000111#8] = .ok (.push 7) := by decide
theorem test_decode_pop : decode [0b01000110#8, 0b00000001#8] = .ok (.pop 1) := by decide
theorem test_decode_prn : decode [0b01000111#8, 0b00000000#8] = .ok (.prn 0) := by decide
theorem test_decode_call : decode [0b01010000#8, 0b00000010#8] = .ok (.call 2) := by decide
theorem test_decode_ldi : decode [0b10000010#8, 0b00000000#8, 0b00001000#8] = .ok (.ldi 0 8) := by decide
theorem test_decode_mul : decode [0b10100010#8, 0b00000000#8, 0b00000001#8] = .ok (.mul 0 1) := by decide
theorem test_decode_div : decode [0b10100011#8, 0b00000000#8, 0b00000001#8] = .ok (.div 0 1) := by decide
/-- V-CY-3: 0x54 is illegal here. -/
theorem test_decode_0x54 : decode [0x54] = .error (.invalidInstruction 0x54) := by decide
/-- V-CY-6. -/
theorem test_decode_truncated : decode [130, 0] = .error .truncatedInstruction := by decide
/-- V-AL-12 and R202. -/
theorem test_decode_field_order : decode [163, 10, 9] = .error (.registerOutOfRange 10) := by decide
/-- DIV R4,R3 as one number, bit 0 the least significant bit of the first byte. -/
theorem test_table_word : decodeTableWord 24 0x0304A3 = some (.div 4 3) := by decide
theorem test_table_word_short : decodeTableWord 8 0xFFFF82 = some (.ldi 0 0) := by decide
theorem test_placed_word_runs :
    (State.reset.withFetchWord 24 0xFF0082).arch.action = .run (.ldi 0 255) := by decide

/-! ### One step on a small state -/

/-- A Running core with code, ip, the values of x[0] and x[1] (the others 0) and a stack (top first). -/
def small (c : Config) (code : List Byte) (ip x0 x1 : Nat) (stack : List Byte) : ArchState c :=
  { ArchState.reset c with
    x := ((Vector.replicate 8 0).set 0 (BitVec.ofNat c.bits x0)).set 1 (BitVec.ofNat c.bits x1)
    ip := BitVec.ofNat c.bits ip
    status := .running
    stack := stack
    codeLen := BitVec.ofNat c.bits code.length
    code := Memory.ofBytes 0 code }

/-- What a test looks at after a step. -/
structure Look where
  status : Nat
  ip : Nat
  x0 : Nat
  x1 : Nat
  stack : List Byte
  out : List Nat
  fault : Option (Nat × Nat × Nat)
  deriving DecidableEq, Repr

/-- The status code, ip, x[0], x[1], the stack, the output and the fault record after one step. -/
def look {c : Config} (m : ArchState c) : Option Look :=
  match step ⟨c, m⟩ with
  | .next t => some ⟨t.arch.status.code, t.arch.ip.toNat, (t.arch.reg 0).toNat, (t.arch.reg 1).toNat, t.arch.stack,
      t.arch.out.map BitVec.toNat, t.arch.fault.map (fun f => (f.kind.code, f.addr.toNat, f.info.toNat))⟩
  | .fault _ => none
  | .refused _ => none

/-- W = 64, unbounded stack. -/
def c64 : Config := Config.reference
/-- W = 8, unbounded stack. -/
def c8 : Config := { wordSize := .w8, stackCap := .unbounded }
/-- W = 64, a stack of one entry. -/
def cap1 : Config := { wordSize := .w64, stackCap := .entries 1 }

/-- V-CY-1 -/
theorem test_end_of_code : look (small c64 [] 0 0 0 []) = some ⟨2, 0, 0, 0, [], [], none⟩ := by decide
/-- V-CY-4, its second step -/
theorem test_illegal : look (small c64 [0, 255] 1 0 0 []) = some ⟨3, 1, 0, 0, [], [], some (1, 1, 255)⟩ := by decide
/-- V-CY-5 -/
theorem test_truncated : look (small c64 [71] 0 0 0 []) = some ⟨3, 0, 0, 0, [], [], some (5, 0, 0)⟩ := by decide
/-- V-SY-1 -/
theorem test_nop : look (small c64 [0, 1] 0 0 0 []) = some ⟨1, 1, 0, 0, [], [], none⟩ := by decide
/-- R141: after HLT at 5, ip = 6 -/
theorem test_hlt : look (small c64 [130, 0, 8, 71, 0, 1] 5 0 0 []) = some ⟨2, 6, 0, 0, [], [], none⟩ := by decide
/-- V-SY-5 -/
theorem test_prn : look (small c64 [71, 0] 0 600 0 []) = some ⟨1, 2, 600, 0, [], [600], none⟩ := by decide
/-- V-SY-4 -/
theorem test_prn_r8 : look (small c64 [71, 8] 0 0 0 []) = some ⟨3, 0, 0, 0, [], [], some (4, 0, 8)⟩ := by decide
/-- V-DM-1 -/
theorem test_ldi : look (small c64 [130, 0, 255] 0 0 0 []) = some ⟨1, 3, 255, 0, [], [], none⟩ := by decide
/-- V-DM-2 -/
theorem test_ldi_replaces :
    look (small c64 [130, 0, 0] 0 (2 ^ 40 + 5) 0 []) = some ⟨1, 3, 0, 0, [], [], none⟩ := by decide
/-- V-DM-5, first step -/
theorem test_push : look (small c64 [69, 0, 70, 1] 0 600 0 []) = some ⟨1, 2, 600, 0, [88], [], none⟩ := by decide
/-- V-DM-9, second step -/
theorem test_push_full :
    look (small cap1 [69, 0, 69, 0] 2 0 0 [0]) = some ⟨3, 2, 0, 0, [0], [], some (7, 2, 0)⟩ := by decide
/-- V-DM-5, second step -/
theorem test_pop : look (small c64 [69, 0, 70, 1] 2 600 0 [88]) = some ⟨1, 4, 600, 88, [], [], none⟩ := by decide
/-- V-DM-7, second step -/
theorem test_pop_empty :
    look (small c64 [130, 0, 5, 70, 0] 3 5 0 []) = some ⟨3, 3, 5, 0, [], [], some (2, 3, 0)⟩ := by decide
/-- V-CT-1, the register being x[1] -/
theorem test_jmp : look (small c64 [0, 0, 0, 3, 1] 3 0 7 []) = some ⟨1, 8, 0, 7, [], [], none⟩ := by decide
/-- V-CT-3 -/
theorem test_jmp_top :
    look (small c8 [130, 0, 255, 3, 0] 3 255 0 []) = some ⟨3, 3, 255, 0, [], [], some (6, 3, 0)⟩ := by decide
/-- V-CT-6, the register being x[1] -/
theorem test_call :
    look (small c64 [0, 0, 0, 0, 0, 0, 80, 1] 6 0 11 []) = some ⟨1, 12, 0, 11, [8], [], none⟩ := by decide
/-- V-CT-5 -/
theorem test_call_full_and_top :
    look (small cap1 [80, 0] 0 (2 ^ 64 - 1) 0 [9]) =
      some ⟨3, 0, 2 ^ 64 - 1, 0, [9], [], some (7, 0, 0)⟩ := by decide
/-- V-CT-7 -/
theorem test_ret : look (small c64 [17] 0 0 0 [8]) = some ⟨1, 9, 0, 0, [], [], none⟩ := by decide
/-- V-CT-9 -/
theorem test_ret_w8 : look (small c8 [17] 0 0 0 [255]) = some ⟨3, 0, 0, 0, [255], [], some (6, 0, 0)⟩ := by decide
/-- V-AL-1 -/
theorem test_mul_wraps :
    look (small c64 [162, 0, 1] 0 (2 ^ 32) (2 ^ 32) []) = some ⟨1, 3, 0, 2 ^ 32, [], [], none⟩ := by decide
/-- V-AL-4 -/
theorem test_mul_w8 : look (small c8 [162, 0, 1] 0 200 3 []) = some ⟨1, 3, 88, 3, [], [], none⟩ := by decide
/-- R171's example -/
theorem test_div : look (small c64 [163, 0, 1] 0 100 7 []) = some ⟨1, 3, 14, 7, [], [], none⟩ := by decide
/-- V-AL-9 -/
theorem test_div_zero : look (small c64 [163, 0, 0] 0 0 0 []) = some ⟨3, 0, 0, 0, [], [], some (3, 0, 0)⟩ := by decide

/-! ### The host's side -/

/-- ASCII text as bytes. -/
def bytesOf (s : List Char) : List Byte := s.map (fun ch => BitVec.ofNat 8 ch.toNat)

/-- L1-2 -/
theorem test_image : parseImage (bytesOf (['#', ' ', 'c', '\n', '\n', '1', '0', '0', '0', '0', '0', '1', '0', '\n']
    ++ ['0', '0', '0', '0', '0', '0', '0', '0', '\n', '0', '0', '0', '0', '1', '0', '0', '0'])) = .ok [130, 0, 8] := by
  decide
/-- V-LD-4 -/
theorem test_image_blank_first : parseImage (bytesOf [' ', '1', '0', '0', '0', '0', '0', '1']) =
    .error (.invalidArgumentValue (.badLine 0)) := by decide
/-- V-LD-6, the text ending in the bad line -/
theorem test_image_bad_last : parseImage (bytesOf (['0', '0', '0', '0', '0', '0', '0', '1', '\n']
    ++ ['1', 'x', '0', '0', '0', '0', '0', '0'])) = .error (.invalidArgumentValue (.badLine 1)) := by decide
/-- L1-3: `102` is skipped -/
theorem test_image_short : parseImage (bytesOf ['1', '0', '2']) = .ok [] := by decide
/-- V-SY-5: the host prints `600` -/
theorem test_render : renderValue (600#64) = ['6', '0', '0', '\n'] := by decide
/-- R90's example -/
theorem test_assemble : assemble (['L', 'D', 'I', ' ', 'R', '0', ',', '8', ';', ' ', 'P', 'R', 'N', ' ', 'R', '0']
    ++ [';', ' ', 'H', 'L', 'T']) = some [130, 0, 8, 71, 0, 1] := by decide
/-- V-CY-9: a run command on a Halted core -/
theorem test_run_command_halted : (small c64 [] 0 0 0 []).halt.runCommand = (small c64 [] 0 0 0 []).halt := by decide

/-! ### Witnesses: for each obligation with hypotheses, data that meets all of them, one conjunct a clause -/

/-- The largest word a register holds, W = 64. -/
def top64 : Nat := 2 ^ 64 - 1

theorem witness_DecodeOfEncodeIsTheInstruction : (Instr.div 7 7).wf = true ∧ (Instr.ldi 7 255).wf = true := by decide
theorem witness_DecodedBytesAreTheEncoding : decode [163, 7, 7, 200] = .ok (.div 7 7) := by decide
theorem witness_ByteOutsideTheMapFaults :
    (small c64 [0, 255] 1 0 0 []).status = .running ∧ (small c64 [0, 255] 1 0 0 []).byteAt 0 = some 255 ∧
    (255#8).toNat ∉ [0, 1, 3, 17, 69, 70, 71, 80, 130, 162, 163] := by decide
/-- The last clause at the highest address a code byte can have when W = 8: CODE_LEN = 255, ip = 254. -/
theorem witness_NopOnlyAdvances :
    (small c64 [0] 0 0 0 []).ip ≠ Word.top c64.bits ∧
    ({ small c8 [] 254 0 0 [] with codeLen := 255 } : ArchState c8).byteAt 0 = some 0 := by decide
theorem witness_HltHaltsPastItself :
    (small c64 [1] 0 0 0 []).ip ≠ Word.top c64.bits ∧
    ({ small c8 [] 254 0 0 [] with codeLen := 255, code := [(254, 1)] } : ArchState c8).byteAt 0 = some 1 := by decide
/-- The result clause at the highest register; the two decode faults of format R at the end of the code and at 8. -/
theorem witness_PrnEmitsTheWholeWord :
    ((7#8).toNat < 8 ∧ (small c64 [71, 7] 0 0 0 []).ip + 1 ≠ Word.top c64.bits) ∧
    ((small c64 [71] 0 0 0 []).byteAt 0 = some 71 ∧ (small c64 [71] 0 0 0 []).byteAt 1 = none) ∧
    ((small c64 [71, 8] 0 0 0 []).byteAt 0 = some 71 ∧ (small c64 [71, 8] 0 0 0 []).byteAt 1 = some 8) := by decide
theorem witness_LdiZeroExtends :
    ((7#8).toNat < 8 ∧ (small c64 [130, 7, 255] 0 0 0 []).ip + 2 ≠ Word.top c64.bits) ∧
    ((small c64 [130] 0 0 0 []).byteAt 0 = some 130 ∧ (small c64 [130] 0 0 0 []).byteAt 1 = none) ∧
    ((small c64 [130, 9] 0 0 0 []).byteAt 0 = some 130 ∧ (small c64 [130, 9] 0 0 0 []).byteAt 2 = none) ∧
    ((small c64 [130, 8, 1] 0 0 0 []).byteAt 1 = some 8 ∧ (small c64 [130, 8, 1] 0 0 0 []).byteAt 2 = some 1) := by
  decide
theorem witness_PushTruncatesToAByte :
    ((7#8).toNat < 8 ∧ c64.stackCap ≠ .entries 0 ∧ (small c64 [69, 7] 0 0 0 []).ip + 1 ≠ Word.top c64.bits) ∧
    (cap1.stackCap ≠ .entries (small cap1 [69, 0] 0 0 0 []).stack.length) ∧
    (cap1.stackCap = .entries (small cap1 [69, 0] 0 0 0 [9]).stack.length) ∧
    ((small c64 [69] 0 0 0 []).byteAt 0 = some 69 ∧ (small c64 [69] 0 0 0 []).byteAt 1 = none) ∧
    ((small c64 [69, 8] 0 0 0 []).byteAt 0 = some 69 ∧ (small c64 [69, 8] 0 0 0 []).byteAt 1 = some 8) := by decide
theorem witness_PopZeroExtends :
    ((7#8).toNat < 8 ∧ (small c64 [70, 7] 0 0 0 [255]).stack = 255 :: [] ∧
      (small c64 [70, 7] 0 0 0 [255]).ip + 1 ≠ Word.top c64.bits) ∧
    (small c64 [70, 7] 0 0 0 []).stack = [] ∧
    ((small c64 [70] 0 0 0 []).byteAt 0 = some 70 ∧ (small c64 [70] 0 0 0 []).byteAt 1 = none) ∧
    ((small c64 [70, 8] 0 0 0 []).byteAt 0 = some 70 ∧ (small c64 [70, 8] 0 0 0 []).byteAt 1 = some 8) := by decide
theorem witness_PushThenPopKeepsTheLowByte :
    c64.stackCap ≠ .entries (small c64 [69, 0, 70, 1] 0 600 0 []).stack.length ∧
    (small c64 [69, 0, 70, 1] 0 600 0 []).ip + 1 ≠ Word.top c64.bits ∧
    (small c64 [69, 0, 70, 1] 2 600 0 [88]).stack = [88] ∧
    (small c64 [69, 0, 70, 1] 2 600 0 [88]).ip + 1 ≠ Word.top c64.bits := by decide
theorem witness_JmpLandsOnePastTheRegister :
    (small c64 [3, 0] 0 (top64 - 1) 0 []).x[(0#8).toNat] ≠ Word.top c64.bits ∧
    (small c64 [3, 0] 0 top64 0 []).x[(0#8).toNat] = Word.top c64.bits ∧
    ((small c64 [3] 0 0 0 []).byteAt 0 = some 3 ∧ (small c64 [3] 0 0 0 []).byteAt 1 = none) ∧
    ((small c64 [3, 8] 0 0 0 []).byteAt 0 = some 3 ∧ (small c64 [3, 8] 0 0 0 []).byteAt 1 = some 8) := by decide
theorem witness_CallPushesTheReturnByte :
    (cap1.stackCap ≠ .entries (small cap1 [80, 0] 0 (top64 - 1) 0 []).stack.length ∧
      (small cap1 [80, 0] 0 (top64 - 1) 0 []).x[(0#8).toNat] ≠ Word.top cap1.bits) ∧
    (cap1.stackCap = .entries (small cap1 [80, 0] 0 top64 0 [9]).stack.length) ∧
    (cap1.stackCap ≠ .entries (small cap1 [80, 0] 0 top64 0 []).stack.length ∧
      (small cap1 [80, 0] 0 top64 0 []).x[(0#8).toNat] = Word.top cap1.bits) ∧
    ((small c64 [80] 0 0 0 []).byteAt 0 = some 80 ∧ (small c64 [80] 0 0 0 []).byteAt 1 = none) ∧
    ((small c64 [80, 8] 0 0 0 []).byteAt 0 = some 80 ∧ (small c64 [80, 8] 0 0 0 []).byteAt 1 = some 8) := by decide
theorem witness_RetLandsOnePastTheByte :
    ((small c64 [17] 0 0 0 [255]).stack = 255 :: [] ∧ ¬ (c64.wordSize = .w8 ∧ (255 : Byte) = 255)) ∧
    ((small c8 [17] 0 0 0 [254]).stack = 254 :: [] ∧ ¬ (c8.wordSize = .w8 ∧ (254 : Byte) = 255)) ∧
    (small c64 [17] 0 0 0 []).stack = [] ∧
    ((small c8 [17] 0 0 0 [255]).stack = 255 :: [] ∧ c8.wordSize = .w8) := by decide
/-- At a = 253, the last address a CALL returns from, and at a = 254. -/
theorem witness_ReturnSkipsOneByte :
    (c64.stackCap ≠ .entries (small c64 [] 253 11 0 []).stack.length ∧
      (small c64 [] 253 11 0 []).x[(0#8).toNat] ≠ Word.top c64.bits ∧ (small c64 [] 253 11 0 []).ip.toNat ≤ 253 ∧
      ¬ (c64.wordSize = .w8 ∧ ((small c64 [] 253 11 0 []).ip.toNat + 2) % 256 = 255)) ∧
    ((small c8 [] 254 11 0 []).x[(0#8).toNat] ≠ Word.top c8.bits ∧
      ¬ (c8.wordSize = .w8 ∧ ((small c8 [] 254 11 0 []).ip.toNat + 2) % 256 = 255)) := by decide
theorem witness_NoLandingAtAddressZero :
    (∃ t : ArchState c64, exec .ret ⟨c64, small c64 [17] 0 0 0 [0]⟩ = .next ⟨c64, t⟩ ∧ t.status ≠ .faulted) ∧
    (∃ t : ArchState c64, exec .ret ⟨c64, small c64 [17] 0 0 0 [255]⟩ = .next ⟨c64, t⟩ ∧ t.status ≠ .faulted) :=
  ⟨⟨_, rfl, by decide⟩, ⟨_, rfl, by decide⟩⟩
theorem witness_MulKeepsTheProductModuloTheWord :
    ((7#8).toNat < 8 ∧ (0#8).toNat < 8 ∧ (small c64 [162, 7, 0] 0 0 0 []).ip + 2 ≠ Word.top c64.bits) ∧
    ((small c64 [162] 0 0 0 []).byteAt 0 = some 162 ∧ (small c64 [162] 0 0 0 []).byteAt 1 = none) ∧
    ((small c64 [162, 9] 0 0 0 []).byteAt 0 = some 162 ∧ (small c64 [162, 9] 0 0 0 []).byteAt 2 = none) ∧
    ((small c64 [162, 8, 9] 0 0 0 []).byteAt 1 = some 8 ∧ (small c64 [162, 8, 9] 0 0 0 []).byteAt 2 = some 9) ∧
    ((small c64 [162, 7, 8] 0 0 0 []).byteAt 1 = some 7 ∧ (small c64 [162, 7, 8] 0 0 0 []).byteAt 2 = some 8) := by
  decide
theorem witness_DivWritesTheFloorQuotient :
    ((small c64 [163, 0, 1] 0 100 1 []).x[(1#8).toNat] ≠ 0 ∧
      (small c64 [163, 0, 1] 0 100 1 []).ip + 2 ≠ Word.top c64.bits) ∧
    (small c64 [163, 0, 1] 0 100 0 []).x[(1#8).toNat] = 0 ∧
    ((small c64 [163] 0 0 0 []).byteAt 0 = some 163 ∧ (small c64 [163] 0 0 0 []).byteAt 1 = none) ∧
    ((small c64 [163, 9] 0 0 0 []).byteAt 0 = some 163 ∧ (small c64 [163, 9] 0 0 0 []).byteAt 2 = none) ∧
    ((small c64 [163, 9, 1] 0 0 0 []).byteAt 1 = some 9 ∧ (small c64 [163, 9, 1] 0 0 0 []).byteAt 2 = some 1) ∧
    ((small c64 [163, 0, 9] 0 0 0 []).byteAt 1 = some 0 ∧ (small c64 [163, 0, 9] 0 0 0 []).byteAt 2 = some 9) := by
  decide
theorem witness_StepRunsTheDecodedInstruction :
    (small c64 [163, 0, 1] 0 100 7 []).status = .running ∧ (Instr.div 0 1).wf = true ∧
    (small c64 [163, 0, 1] 0 100 7 []).holdsAtIp (encode (.div 0 1)) := by
  refine ⟨rfl, by decide, ?_⟩
  intro k h
  have hk : k < 3 := h
  interval_cases k <;> rfl
theorem witness_EndOfCodeEndsTheRun :
    (small c64 [1] 1 0 0 []).status = .running ∧
    (small c64 [1] 1 0 0 []).codeLen.toNat ≤ (small c64 [1] 1 0 0 []).ip.toNat := by decide
theorem witness_MissingOperandFaults :
    (small c64 [130, 0] 0 0 0 []).byteAt 0 = some 130 ∧
    ((130#8).toNat, 2) ∈ [(3, 1), (69, 1), (70, 1), (71, 1), (80, 1), (130, 2), (162, 2), (163, 2)] ∧
    (small c64 [130, 0] 0 0 0 []).codeLen.toNat ≤ (small c64 [130, 0] 0 0 0 []).ip.toNat + 2 := by decide
theorem witness_RegisterFieldsAreCheckedInOrder :
    ((small c64 [80, 8] 0 0 0 []).byteAt 0 = some 80 ∧ (small c64 [80, 8] 0 0 0 []).byteAt 1 = some 8 ∧
      (80#8).toNat ∈ [3, 69, 70, 71, 80]) ∧
    ((small c64 [162, 8, 9] 0 0 0 []).byteAt 0 = some 162 ∧ (small c64 [162, 8, 9] 0 0 0 []).byteAt 1 = some 8 ∧
      (small c64 [162, 8, 9] 0 0 0 []).byteAt 2 = some 9 ∧ (162#8).toNat ∈ [130, 162, 163]) ∧
    ((small c64 [163, 7, 8] 0 0 0 []).byteAt 1 = some 7 ∧ (small c64 [163, 7, 8] 0 0 0 []).byteAt 2 = some 8 ∧
      (163#8).toNat ∈ [162, 163]) ∧
    ((small c64 [130, 7, 255] 0 0 0 []).byteAt 1 = some 7 ∧ (small c64 [130, 7, 255] 0 0 0 []).byteAt 2 = some 255) := by
  decide
theorem witness_IllFormedTermRaisesRegisterOutOfRange :
    (Instr.div 8 9).firstBadField = some 8 ∧ (Instr.mul 7 8).firstBadField = some 8 := by decide
theorem witness_IncrementAtTheTopFaults :
    (small c64 [] top64 0 0 []).ip = Word.top c64.bits ∧
    ((small c64 [] (top64 - 1) 0 0 [5]).ip + 1 = Word.top c64.bits ∧
      c64.stackCap ≠ .entries (small c64 [] (top64 - 1) 0 0 [5]).stack.length ∧
      (small c64 [] (top64 - 1) 0 0 [5]).stack ≠ []) ∧
    ((small c64 [] (top64 - 2) 0 1 []).ip + 2 = Word.top c64.bits ∧
      (small c64 [] (top64 - 2) 0 1 []).x[(1#8).toNat] ≠ 0) ∧
    (small c64 [] 0 top64 0 []).x[(0#8).toNat] = Word.top c64.bits ∧
    ((small c8 [17] 0 0 0 [255]).stack = 255 :: [] ∧ c8.wordSize = .w8) := by decide
/-- The second part: a step that ends in IpOverflow, by JMP (V-CT-2) and by RET with W = 8 (V-CT-9). -/
theorem witness_IncrementAtTheTopFaults_step :
    step ⟨c64, small c64 [3, 0] 0 top64 0 []⟩ = .next ⟨c64, (small c64 [3, 0] 0 top64 0 []).inFault .ipOverflow 0⟩ ∧
    step ⟨c8, small c8 [17] 0 0 0 [255]⟩ = .next ⟨c8, (small c8 [17] 0 0 0 [255]).inFault .ipOverflow 0⟩ :=
  ⟨rfl, rfl⟩
theorem witness_StoppedCoreDoesNothing :
    (ArchState.reset c64).status ≠ .running ∧ (small c64 [] 0 0 0 []).halt.status ≠ .running := by decide
theorem witness_OnlyHltOrEndOfCodeHalts :
    (∃ t : ArchState c64, step ⟨c64, small c64 [1] 0 0 0 []⟩ = .next ⟨c64, t⟩ ∧ t.status = .halted) ∧
    (∃ t : ArchState c64, step ⟨c64, small c64 [1] 1 0 0 []⟩ = .next ⟨c64, t⟩ ∧ t.status = .halted) :=
  ⟨⟨_, rfl, rfl⟩, ⟨_, rfl, rfl⟩⟩
theorem witness_FaultsArePrecise :
    ∃ t : ArchState c64, step ⟨c64, small c64 [163, 0, 0] 0 0 0 []⟩ = .next ⟨c64, t⟩ ∧ t.status = .faulted :=
  ⟨_, rfl, rfl⟩
/-- One state for each of the seven kinds, and IpOverflow by RET too. -/
theorem witness_EachFaultHasItsCause :
    step ⟨c64, small c64 [2] 0 0 0 []⟩ = .next ⟨c64, (small c64 [2] 0 0 0 []).inFault .invalidInstruction 2⟩ ∧
    step ⟨c64, small c64 [17] 0 0 0 []⟩ = .next ⟨c64, (small c64 [17] 0 0 0 []).inFault .stackUnderflow 0⟩ ∧
    step ⟨c64, small c64 [163, 0, 1] 0 5 0 []⟩ =
      .next ⟨c64, (small c64 [163, 0, 1] 0 5 0 []).inFault .divideByZero 0⟩ ∧
    step ⟨c64, small c64 [163, 0, 9] 0 5 0 []⟩ =
      .next ⟨c64, (small c64 [163, 0, 9] 0 5 0 []).inFault .registerOutOfRange 9⟩ ∧
    step ⟨c64, small c64 [71] 0 0 0 []⟩ = .next ⟨c64, (small c64 [71] 0 0 0 []).inFault .truncatedInstruction 0⟩ ∧
    step ⟨c64, small c64 [80, 0] 0 top64 0 []⟩ = .next ⟨c64, (small c64 [80, 0] 0 top64 0 []).inFault .ipOverflow 0⟩ ∧
    step ⟨cap1, small cap1 [69, 0] 0 0 0 [9]⟩ = .next ⟨cap1, (small cap1 [69, 0] 0 0 0 [9]).inFault .stackOverflow 0⟩ ∧
    step ⟨c8, small c8 [17] 0 0 0 [255]⟩ = .next ⟨c8, (small c8 [17] 0 0 0 [255]).inFault .ipOverflow 0⟩ :=
  ⟨rfl, rfl, rfl, rfl, rfl, rfl, rfl, rfl⟩
theorem witness_FaultedIsLeftByReset : ((small c64 [2] 0 0 0 []).inFault .invalidInstruction 2).status = .faulted := rfl
theorem witness_OnlyTheDestinationRegisterChanges :
    ∃ t : ArchState c64, exec (.mul 0 1) ⟨c64, small c64 [162, 0, 1] 0 4 5 []⟩ = .next ⟨c64, t⟩ ∧
      (0#8).toNat ≠ 1 ∧ t.status = .running := ⟨_, rfl, by decide, rfl⟩
theorem witness_UnreadRegistersDoNotMatter :
    ∃ t : ArchState c64, exec (.div 0 1) ⟨c64, small c64 [163, 0, 1] 0 100 7 []⟩ = .next ⟨c64, t⟩ ∧
      (0#8).toNat ≠ 7 ∧ (1#8).toNat ≠ 7 := ⟨_, rfl, by decide, by decide⟩
theorem witness_OnlyTheTopOfTheStackChanges :
    (∃ t : ArchState c64, exec (.call 0) ⟨c64, small c64 [80, 0] 0 4 0 [1]⟩ = .next ⟨c64, t⟩) ∧
    (∃ t : ArchState c64, exec .ret ⟨c64, small c64 [17] 0 4 0 [1]⟩ = .next ⟨c64, t⟩) := ⟨⟨_, rfl⟩, ⟨_, rfl⟩⟩
theorem witness_OnlyPrnWritesTheOutput :
    ∃ t : ArchState c64, exec (.prn 0) ⟨c64, small c64 [71, 0] 0 600 0 []⟩ = .next ⟨c64, t⟩ ∧ t.out = [600] :=
  ⟨_, rfl, by decide⟩
theorem witness_StatusChangesOnlyByHltOrFault :
    (∃ t : ArchState c64, exec .hlt ⟨c64, small c64 [1] 0 0 0 []⟩ = .next ⟨c64, t⟩ ∧ t.status = .halted) ∧
    (∃ t : ArchState c64, exec .ret ⟨c64, small c64 [17] 0 0 0 []⟩ = .next ⟨c64, t⟩ ∧ t.status = .faulted) ∧
    (∃ t : ArchState c64, step ⟨c64, small c64 [1] 1 0 0 []⟩ = .next ⟨c64, t⟩ ∧ t.status = .halted) :=
  ⟨⟨_, rfl, rfl⟩, ⟨_, rfl, rfl⟩, ⟨_, rfl, rfl⟩⟩
theorem witness_NothingWritesCodeDuringARun :
    (∃ t : ArchState c64, exec (.push 0) ⟨c64, small c64 [69, 0] 0 4 0 []⟩ = .next ⟨c64, t⟩) ∧
    (∃ t : ArchState c64, step ⟨c64, small c64 [69, 0] 0 4 0 []⟩ = .next ⟨c64, t⟩) ∧
    (small c64 [69, 0] 0 4 0 []).status = .running := ⟨⟨_, rfl⟩, ⟨_, rfl⟩, rfl⟩
theorem witness_ResetStateIsLegal : c64.wf = true ∧ cap1.wf = true ∧ c8.wf = true := by decide

/-- A Running state off the reset state that has the invariant. -/
theorem small_inv : (small cap1 [80, 0] 0 4 0 []).Inv where
  cfgLegal := rfl
  codeCanonical := by decide
  codeInside := by decide
  stackFits := by decide
  faultedHasRecord := by decide
  recordLegal := fun f h => by cases h
  idleIsReset := fun h => by cases h

theorem witness_StepKeepsTheInvariant :
    State.Inv ⟨cap1, small cap1 [80, 0] 0 4 0 []⟩ ∧
    ∃ t : ArchState cap1, step ⟨cap1, small cap1 [80, 0] 0 4 0 []⟩ = .next ⟨cap1, t⟩ := ⟨small_inv, _, rfl⟩
theorem witness_HostActionsKeepTheInvariant :
    (small cap1 [80, 0] 0 4 0 []).Inv ∧
    ∃ t : ArchState c64, (ArchState.reset c64).loadCode [1, 2] = .ok t := ⟨small_inv, _, rfl⟩
/-- One reachable state that is Idle, and one that is Faulted: load `[2]`, run, step. -/
theorem witness_ReachableStatesAreLegal :
    (Reachable ⟨c64, ArchState.reset c64⟩ ∧ (ArchState.reset c64).status = .idle) ∧
    (∃ m : ArchState c64, Reachable ⟨c64, m⟩ ∧ m.status = .faulted) :=
  ⟨⟨.fresh c64 rfl, rfl⟩, _, .step (.run (.load (.fresh c64 rfl) [2] rfl)) rfl, rfl⟩
theorem witness_RunCommandStartsOnlyFromIdle :
    (ArchState.reset c64).status = .idle ∧ (small c64 [] 0 0 0 []).status = .running ∧
    (small c64 [] 0 0 0 []).halt.status = .halted ∧ ((small c64 [] 0 0 0 []).inFault .divideByZero 0).status = .faulted := by
  decide
theorem witness_StatusOutputShowsTheOutcome :
    (ArchState.reset c64).status = .idle ∧ (small c64 [] 0 0 0 []).status = .running ∧
    (small c64 [] 0 0 0 []).halt.status = .halted ∧ ((small c64 [] 0 0 0 []).inFault .divideByZero 0).status = .faulted ∧
    ((small c64 [] 0 0 0 []).inFault .divideByZero 0).fault = some ⟨.divideByZero, 0, 0⟩ := by decide
/-- At the longest image there can be when W = 8, and at one byte more. -/
theorem witness_LoadReplacesTheWholeCode :
    ((ArchState.reset c8).status ≠ .running ∧ (List.replicate 255 (0#8)).length ≤ 2 ^ c8.bits - 1) ∧
    parseImage (imageOf [130, 0, 8]) = .ok [130, 0, 8] := by
  rw [List.length_replicate]; decide
theorem witness_TooLongAnImageIsRefused :
    ((ArchState.reset c8).status ≠ .running ∧ 2 ^ c8.bits - 1 < (List.replicate 256 (0#8)).length) ∧
    parseImage (imageOf (List.replicate 256 0)) = .ok (List.replicate 256 0) := by
  rw [List.length_replicate]; exact ⟨by decide, by decide +kernel⟩
theorem witness_ImageOfBytesLoadsAsThem :
    (ArchState.reset c8).status ≠ .running ∧ ([130, 0, 8] : List Byte).length ≤ 2 ^ c8.bits - 1 := by decide
theorem witness_BootFetchesFromAddressZero : ([130, 0, 8, 71, 0, 1] : List Byte).length ≤ 2 ^ c8.bits - 1 := by decide
/-- A comment line, and a line of 7 characters with a carriage return. -/
theorem witness_SkippedLinesContributeNothing :
    (([0x23, 0x31] : List Byte).all (fun b => b ≠ 0x0A) ∧ ([0x23, 0x31] : List Byte).getLast? ≠ some 0x0D ∧
      ([0x23, 0x31] : List Byte).head? = some 0x23) ∧
    ((List.replicate 7 (0x31#8)).all (fun b => b ≠ 0x0A) ∧ (List.replicate 7 (0x31#8)).length < 8) := by decide
theorem witness_RetainedLineContributesItsByte :
    ([0x20, 0x23] : List Byte).all (fun b => b ≠ 0x0A) ∧ ([0x20, 0x23] : List Byte).getLast? ≠ some 0x0D := by decide
/-- V-LD-6: `00000001`, then `1x000000`, the bad character at the place k = 1; and one at the last place, k = 7. The
line ends the text (`after` is empty), or is followed by a line feed. -/
theorem witness_BadDigitFailsTheWholeLoad :
    (bytesOf ['0', '0', '0', '0', '0', '0', '0', '1', '\n']).getLast? = some 0x0A ∧
    (bytesOf ['1', 'x', '0', '0', '0', '0', '0', '0']).all (fun b => b ≠ 0x0A) ∧
    (bytesOf ['1', 'x', '0', '0', '0', '0', '0', '0']).getLast? ≠ some 0x0D ∧
    (bytesOf ['1', 'x', '0', '0', '0', '0', '0', '0']).head? ≠ some 0x23 ∧
    8 ≤ (bytesOf ['1', 'x', '0', '0', '0', '0', '0', '0']).length ∧
    (bytesOf ['1', 'x', '0', '0', '0', '0', '0', '0'])[1]? = some 0x78 ∧
    (bytesOf ['1', '0', '0', '0', '0', '0', '0', '2'])[7]? = some 0x32 ∧
    ([] : List Byte) = [] ∧ ([0x0A] : List Byte).head? = some 0x0A ∧
    (ArchState.reset c8).status ≠ .running ∧ (small c8 [] 0 0 0 []).status = .running := by decide
theorem witness_AssemblyReadsBack :
    (Instr.ldi 7 255).wf = true ∧
    ∀ p ∈ [(';', Instr.div 7 0), ('\n', Instr.hlt)], (p.1 = ';' ∨ p.1 = '\n') ∧ p.2.wf = true := by decide
theorem witness_PlacedWordIsRunNext :
    decodeTableWord 24 0x0304A3 = some (.div 4 3) ∧ (small c8 [] 252 0 0 []).ip.toNat + 3 < 2 ^ c8.bits ∧
    Memory.wf (small c8 [] 252 0 0 []).code = true := by decide

end Sys2Proof.Tests.Slice0
end

section
/-! PROOFS. The state family: what a step can do given that it answers, the frame of every instruction field by field,
the invariant, and the host's transactions. -/

namespace Sys2Proof

/-! ### Which registers an instruction reads and writes; the opcode byte and the bad field of a decoded instruction -/

/-- The register fields an instruction reads (R23): the field of PRN, JMP, CALL and PUSH, both fields of MUL and DIV. -/
def Instr.readFields : Instr → List Byte
  | .nop | .hlt | .ret | .pop _ | .ldi _ _ => []
  | .prn r | .jmp r | .call r | .push r => [r]
  | .mul ra rb | .div ra rb => [ra, rb]

/-- The register field an instruction writes (R23). -/
def Instr.destField : Instr → Option Byte
  | .nop | .hlt | .ret | .prn _ | .jmp _ | .call _ | .push _ => none
  | .ldi r _ | .pop r => some r
  | .mul ra _ | .div ra _ => some ra

/-- Which instructions read a register, and which fields. -/
theorem Instr.reads_of_mem_readFields {i : Instr} {r : Byte} (h : r ∈ i.readFields) :
    (i = .prn r ∨ i = .jmp r ∨ i = .call r ∨ i = .push r) ∨
    ∃ ra rb : Byte, (i = .mul ra rb ∨ i = .div ra rb) ∧ (r = ra ∨ r = rb) := by
  cases i <;> simp_all [Instr.readFields]

/-- Which instructions write a register. -/
theorem Instr.writes_of_mem_destField {i : Instr} {r : Byte} (h : r ∈ i.destField) :
    (∃ imm : Byte, i = .ldi r imm) ∨ i = .pop r ∨ (∃ rb : Byte, i = .mul r rb) ∨ ∃ rb : Byte, i = .div r rb := by
  cases i <;> simp_all [Instr.destField]

/-- The first byte of what decodes is the instruction's opcode byte. -/
theorem opcode_byte_of_decode {op : Byte} {rest : List Byte} {i : Instr} (h : decode (op :: rest) = .ok i) :
    i.opcode.byte = op := by
  rcases decode_cases op rest with ⟨-, e⟩ | ⟨o, -, -, e⟩ | ⟨o, ho, -, e⟩
  · simp [e] at h
  · simp [e] at h
  · rcases checkFields_cases (buildInstr o (rest.getD 0 0) (rest.getD 1 0)) with ⟨-, e'⟩ | ⟨v, -, e'⟩
    · rw [e, e', Except.ok.injEq] at h
      rw [← h, opcode_buildInstr]
      exact byte_of_opcodeOfByte ho
    · rw [e, e'] at h
      cases h

/-- A bad register field names no register. -/
theorem namesRegister_of_firstBadField {i : Instr} {v : Byte} (h : i.firstBadField = some v) :
    namesRegister v = false := by
  simpa using List.find?_some h

/-! ### The stack's capacity -/

/-- A push keeps the depth within STACK_CAP unless the stack is full (R31, R60). -/
theorem StackCap.holds_succ {sc : StackCap} {n : Nat} (h : sc.holds n = true) (hne : sc ≠ .entries n) :
    sc.holds (n + 1) = true := by
  cases sc with
  | unbounded => rfl
  | entries k =>
    have hkn : k ≠ n := fun e => hne (e ▸ rfl)
    simp only [StackCap.holds, decide_eq_true_eq] at h ⊢
    omega

/-- A pop keeps the depth within STACK_CAP. -/
theorem StackCap.holds_of_succ {sc : StackCap} {n : Nat} (h : sc.holds (n + 1) = true) : sc.holds n = true := by
  cases sc with
  | unbounded => rfl
  | entries k =>
    simp only [StackCap.holds, decide_eq_true_eq] at h ⊢
    omega

end Sys2Proof

namespace Sys2Proof.Machine

variable {c : Config} {m : ArchState c}

/-- The fault of a decode error records an info its kind allows (R201). -/
theorem infoLegal_of_decode_error {bs : List Byte} {e : DecodeError} (h : decode bs = .error e) :
    (raiseOfDecodeError e).kind.infoLegal (raiseOfDecodeError e).info = true := by
  cases bs with
  | nil => cases h; rfl
  | cons op rest =>
    rcases decode_cases op rest with ⟨ho, e'⟩ | ⟨o, -, -, e'⟩ | ⟨o, -, -, e'⟩
    · rw [e'] at h
      cases h
      simp [raiseOfDecodeError, Fault.infoLegal, ho]
    · rw [e'] at h
      cases h
      rfl
    · rcases checkFields_cases (buildInstr o (rest.getD 0 0) (rest.getD 1 0)) with ⟨-, e''⟩ | ⟨v, hv, e''⟩
      · rw [e', e''] at h
        cases h
      · rw [e', e''] at h
        cases h
        simp [raiseOfDecodeError, Fault.infoLegal, namesRegister_of_firstBadField hv]

/-- What an instruction's rule raises records an info its kind allows (R201). -/
theorem infoLegal_of_RuleRaises {i : Instr} {f : Raise} (h : RuleRaises i m f) : f.kind.infoLegal f.info = true := by
  cases i with
  | push _ | call _ | pop _ | ret | div _ _ => obtain ⟨-, rfl⟩ := h; rfl
  | nop | hlt | prn _ | ldi _ _ | jmp _ | mul _ _ => exact h.elim

/-! ### What an answer of `exec` or `step` can be -/

/-- `t` is the fault entry on `m` (R205), with an info its kind allows. -/
def FaultsTo (m t : ArchState c) : Prop :=
  ∃ f : Raise, f.kind.infoLegal f.info = true ∧ t = m.enterFault f

/-- `t` is what the instruction's rule leaves, advanced by one, which does not overflow (R120, R121). -/
def CompletesTo (i : Instr) (m t : ArchState c) : Prop :=
  ∃ u, RuleResult i (m.setIp (m.ip + BitVec.ofNat c.bits i.operandBytes)) u ∧
    u.ip ≠ Word.top c.bits ∧ t = u.setIp (u.ip + 1)

/-- An instruction's meaning ends in a fault entry or completes. -/
theorem exec_next_cases {i : Instr} {t : ArchState c} (h : exec i ⟨c, m⟩ = .next ⟨c, t⟩) :
    FaultsTo m t ∨ CompletesTo i m t := by
  have answer : ∀ {t' : ArchState c}, exec i ⟨c, m⟩ = .next ⟨c, t'⟩ → t = t' := by
    intro t' h'
    simpa [h] using h'
  rcases exec_cases m i with ⟨v, hv, e⟩ | ⟨-, f, hf, e⟩ | ⟨-, u, hu, ⟨-, e⟩ | ⟨ht, e⟩⟩
  · exact .inl ⟨_, by simp [Fault.infoLegal, namesRegister_of_firstBadField hv], answer e⟩
  · exact .inl ⟨f, infoLegal_of_RuleRaises hf, answer e⟩
  · exact .inl ⟨_, rfl, answer e⟩
  · exact .inr ⟨u, hu, ht, answer e⟩

/-- A decoded instruction's opcode byte stands at ip. -/
theorem byteAt_zero_of_decode {i : Instr} (h : decode (m.codeFrom m.ip.toNat maxInstrBytes) = .ok i)
    (hip : m.ip.toNat < m.codeLen.toNat) : m.byteAt 0 = some i.opcode.byte := by
  have h0 : m.byteAt 0 = some (Memory.read m.code m.ip.toNat) := by simp [ArchState.byteAt, hip]
  rw [codeFrom_ip m h0] at h
  rw [h0, opcode_byte_of_decode h]

/-- A step leaves the state as it is, ends the run at the end of the code, faults, or completes the instruction whose
opcode byte stands at ip; all but the first only in a Running core. -/
theorem step_next_cases {s : State} (h : step ⟨c, m⟩ = .next s) :
    ∃ t : ArchState c, s = ⟨c, t⟩ ∧
      ((m.status ≠ .running ∧ t = m) ∨
       (m.status = .running ∧
        ((m.byteAt 0 = none ∧ t = m.halt) ∨ FaultsTo m t ∨
         ∃ i, m.byteAt 0 = some i.opcode.byte ∧ CompletesTo i m t))) := by
  rcases step_cases m with ⟨hs, e⟩ | ⟨hs, hi, e⟩ | ⟨e', hs, hi, hd, e⟩ | ⟨i, hs, hi, hd, e⟩
  · rw [e] at h
    cases h
    exact ⟨m, rfl, .inl ⟨hs, rfl⟩⟩
  · rw [e] at h
    cases h
    exact ⟨_, rfl, .inr ⟨hs, .inl ⟨(byteAt_none m 0).mpr hi, rfl⟩⟩⟩
  · rw [e] at h
    cases h
    exact ⟨_, rfl, .inr ⟨hs, .inr (.inl ⟨_, infoLegal_of_decode_error hd, rfl⟩)⟩⟩
  · rw [e, exec_eq_runRule] at h
    cases h
    refine ⟨_, rfl, .inr ⟨hs, .inr ?_⟩⟩
    rcases exec_next_cases (exec_eq_runRule m i) with hf | hc
    · exact .inl hf
    · exact .inr ⟨i, byteAt_zero_of_decode hd hi, hc⟩

/-! ### The frame of a rule, field by field -/

/-- Only HLT's rule writes the status. -/
theorem RuleResult_status {i : Instr} {u : ArchState c} (h : RuleResult i m u) :
    u.status = m.status ∨ (i = .hlt ∧ u.status = .halted) := by
  cases i with
  | hlt => cases h; exact .inr ⟨rfl, rfl⟩
  | nop => cases h; exact .inl rfl
  | prn r | ldi r imm | jmp r => obtain ⟨_, rfl⟩ := h; exact .inl rfl
  | push r | call r | mul ra rb => obtain ⟨_, _, rfl⟩ := h; exact .inl rfl
  | ret | div ra rb => obtain ⟨_, _, _, rfl⟩ := h; exact .inl rfl
  | pop r => obtain ⟨_, _, _, _, rfl⟩ := h; exact .inl rfl

/-- Only the rules of PUSH and CALL add to the stack, one byte on a stack that is not full; only those of POP and RET
take from it, the top byte. -/
theorem RuleResult_stack {i : Instr} {u : ArchState c} (h : RuleResult i m u) :
    u.stack = m.stack ∨
    ((∃ r : Byte, i = .push r ∨ i = .call r) ∧ c.stackCap ≠ .entries m.stack.length ∧
      ∃ b : Byte, u.stack = b :: m.stack) ∨
    ((i = .ret ∨ ∃ r : Byte, i = .pop r) ∧ ∃ b : Byte, m.stack = b :: u.stack) := by
  cases i with
  | push r => obtain ⟨_, hc, rfl⟩ := h; exact .inr (.inl ⟨⟨r, .inl rfl⟩, hc, _, rfl⟩)
  | call r => obtain ⟨_, hc, rfl⟩ := h; exact .inr (.inl ⟨⟨r, .inr rfl⟩, hc, _, rfl⟩)
  | pop r => obtain ⟨_, b, _, hs, rfl⟩ := h; exact .inr (.inr ⟨.inr ⟨r, rfl⟩, b, hs⟩)
  | ret => obtain ⟨b, _, hs, rfl⟩ := h; exact .inr (.inr ⟨.inl rfl, b, hs⟩)
  | nop | hlt => cases h; exact .inl rfl
  | prn r | ldi r imm | jmp r => obtain ⟨_, rfl⟩ := h; exact .inl rfl
  | mul ra rb => obtain ⟨_, _, rfl⟩ := h; exact .inl rfl
  | div ra rb => obtain ⟨_, _, _, rfl⟩ := h; exact .inl rfl

/-- Only PRN's rule writes the output. -/
theorem RuleResult_out {i : Instr} {u : ArchState c} (h : RuleResult i m u) :
    u.out = m.out ∨ ∃ (r : Byte) (hr : r.toNat < 8), i = .prn r ∧ u.out = m.out ++ [m.x[r.toNat]] := by
  cases i with
  | prn r => obtain ⟨hr, rfl⟩ := h; exact .inr ⟨r, hr, rfl, rfl⟩
  | nop | hlt => cases h; exact .inl rfl
  | ldi r imm | jmp r => obtain ⟨_, rfl⟩ := h; exact .inl rfl
  | push r | call r | mul ra rb => obtain ⟨_, _, rfl⟩ := h; exact .inl rfl
  | ret | div ra rb => obtain ⟨_, _, _, rfl⟩ := h; exact .inl rfl
  | pop r => obtain ⟨_, _, _, _, rfl⟩ := h; exact .inl rfl

/-- A rule writes no register but the destination. -/
theorem RuleResult_x {i : Instr} {u : ArchState c} (h : RuleResult i m u) {k : Nat} (hk : k < 8)
    (hd : ∀ r ∈ i.destField, r.toNat ≠ k) : u.x[k] = m.x[k] := by
  cases i with
  | nop | hlt => cases h; rfl
  | prn r | jmp r => obtain ⟨_, rfl⟩ := h; rfl
  | push r | call r => obtain ⟨_, _, rfl⟩ := h; rfl
  | ret => obtain ⟨_, _, _, rfl⟩ := h; rfl
  | ldi r imm => obtain ⟨hr, rfl⟩ := h; exact Vector.getElem_set_ne hr hk (hd r rfl)
  | pop r => obtain ⟨hr, _, _, _, rfl⟩ := h; exact Vector.getElem_set_ne hr hk (hd r rfl)
  | mul ra rb => obtain ⟨hr, _, rfl⟩ := h; exact Vector.getElem_set_ne hr hk (hd ra rfl)
  | div ra rb => obtain ⟨hr, _, _, rfl⟩ := h; exact Vector.getElem_set_ne hr hk (hd ra rfl)

/-- A fault entry keeps the code (R53, R205). -/
theorem FaultsTo.code_eq {t : ArchState c} (h : FaultsTo m t) : t.codeLen = m.codeLen ∧ t.code = m.code := by
  obtain ⟨f, -, rfl⟩ := h
  exact ⟨rfl, rfl⟩

/-- A completed instruction keeps the code (R53). -/
theorem CompletesTo.code_eq {i : Instr} {t : ArchState c} (h : CompletesTo i m t) :
    t.codeLen = m.codeLen ∧ t.code = m.code := by
  obtain ⟨u, hu, -, rfl⟩ := h
  obtain ⟨hlen, hcode, -⟩ := RuleResult_keeps_code_and_record _ hu
  exact ⟨hlen, hcode⟩

/-- A completed instruction keeps the fault record, and all but HLT keep the status. -/
theorem CompletesTo.status_cases {i : Instr} {t : ArchState c} (h : CompletesTo i m t) :
    (t.status = m.status ∧ t.fault = m.fault) ∨ (i = .hlt ∧ t.status = .halted ∧ t.fault = m.fault) := by
  obtain ⟨u, hu, -, rfl⟩ := h
  obtain ⟨-, -, hfault⟩ := RuleResult_keeps_code_and_record _ hu
  rcases RuleResult_status hu with hs | ⟨hi, hs⟩
  · exact .inl ⟨hs, hfault⟩
  · exact .inr ⟨hi, hs, hfault⟩

/-! ### Two states that differ in one register: every operation keeps their agreement elsewhere -/

/-- The states agree in every field but register `k`. -/
def AgreeOff (k : Fin 8) (m m' : ArchState c) : Prop :=
  ∃ y : Vector c.Word 8, m' = { m with x := y } ∧ ∀ j : Fin 8, j ≠ k → y.get j = m.x.get j

/-- Both results are the same raise, or states that agree in every field but register `k`. -/
inductive ResultsAgree (k : Fin 8) : Except Raise (ArchState c) → Except Raise (ArchState c) → Prop where
  | error (f : Raise) : ResultsAgree k (.error f) (.error f)
  | ok {u u' : ArchState c} (h : AgreeOff k u u') : ResultsAgree k (.ok u) (.ok u')

section
variable {k : Fin 8} {m' : ArchState c}

theorem AgreeOff.reg_eq (h : AgreeOff k m m') {j : Fin 8} (hj : j ≠ k) : m'.reg j = m.reg j := by
  obtain ⟨y, rfl, hy⟩ := h
  exact hy j hj

theorem AgreeOff.setIp (h : AgreeOff k m m') (v : c.Word) : AgreeOff k (m.setIp v) (m'.setIp v) := by
  obtain ⟨y, rfl, hy⟩ := h
  exact ⟨y, rfl, hy⟩

theorem AgreeOff.emit (h : AgreeOff k m m') (v : c.Word) : AgreeOff k (m.emit v) (m'.emit v) := by
  obtain ⟨y, rfl, hy⟩ := h
  exact ⟨y, rfl, hy⟩

theorem AgreeOff.halt (h : AgreeOff k m m') : AgreeOff k m.halt m'.halt := by
  obtain ⟨y, rfl, hy⟩ := h
  exact ⟨y, rfl, hy⟩

theorem AgreeOff.enterFault (h : AgreeOff k m m') (f : Raise) : AgreeOff k (m.enterFault f) (m'.enterFault f) := by
  obtain ⟨y, rfl, hy⟩ := h
  exact ⟨y, rfl, hy⟩

theorem AgreeOff.setStack (h : AgreeOff k m m') (st : List Byte) :
    AgreeOff k { m with stack := st } { m' with stack := st } := by
  obtain ⟨y, rfl, hy⟩ := h
  exact ⟨y, rfl, hy⟩

theorem AgreeOff.ip_eq (h : AgreeOff k m m') : m'.ip = m.ip := by
  obtain ⟨y, rfl, -⟩ := h
  rfl

theorem AgreeOff.stack_eq (h : AgreeOff k m m') : m'.stack = m.stack := by
  obtain ⟨y, rfl, -⟩ := h
  rfl

/-- Both states take the same value in register `a`, which may be `k`. -/
theorem AgreeOff.setReg (h : AgreeOff k m m') (a : Fin 8) (v : c.Word) : AgreeOff k (m.setReg a v) (m'.setReg a v) := by
  obtain ⟨y, rfl, hy⟩ := h
  refine ⟨y.set a.val v, rfl, fun j hj => ?_⟩
  by_cases hja : a.val = j.val
  · simp [Vector.get_eq_getElem, hja]
  · simpa [Vector.get_eq_getElem, hja] using hy j hj

/-- Agreement passes through a sequence of operations. -/
theorem ResultsAgree.bind {a a' : Except Raise (ArchState c)} {f f' : ArchState c → Except Raise (ArchState c)}
    (h : ResultsAgree k a a') (hf : ∀ u u', AgreeOff k u u' → ResultsAgree k (f u) (f' u')) :
    ResultsAgree k (a >>= f) (a' >>= f') := by
  cases h with
  | error e => exact .error e
  | ok hu => exact hf _ _ hu

/-- A register field is read alike on both sides. -/
theorem ResultsAgree.regOfField_bind {r : Byte} {f f' : Fin 8 → Except Raise (ArchState c)}
    (h : ∀ a : Fin 8, a.val = r.toNat → ResultsAgree k (f a) (f' a)) :
    ResultsAgree k (regOfField r >>= f) (regOfField r >>= f') := by
  by_cases hr : r.toNat < 8
  · rw [regOfField_lt hr]
    exact h ⟨r.toNat, hr⟩ rfl
  · rw [regOfField_ge (Nat.le_of_not_lt hr)]
    exact .error _

/-- Pushing the same byte ends alike: both stacks are full or neither is. -/
theorem AgreeOff.stackPush (h : AgreeOff k m m') (b : Byte) : ResultsAgree k (m.stackPush b) (m'.stackPush b) := by
  rcases stackPush_cases m b with ⟨hc, e⟩ | ⟨hc, e⟩ <;>
    rcases stackPush_cases m' b with ⟨hc', e'⟩ | ⟨hc', e'⟩ <;> rw [h.stack_eq] at hc'
  · rw [e, e']
    exact .error _
  · exact absurd hc hc'
  · exact absurd hc' hc
  · rw [e, e', h.stack_eq]
    exact .ok (h.setStack _)

/-- Popping ends alike: both stacks are empty or have the same top. -/
theorem AgreeOff.stackPop_bind (h : AgreeOff k m m') {f f' : Byte × ArchState c → Except Raise (ArchState c)}
    (hf : ∀ b u u', AgreeOff k u u' → ResultsAgree k (f (b, u)) (f' (b, u'))) :
    ResultsAgree k (m.stackPop >>= f) (m'.stackPop >>= f') := by
  unfold ArchState.stackPop
  rw [h.stack_eq]
  cases m.stack with
  | nil => exact .error _
  | cons b rest => exact hf b _ _ (h.setStack rest)

/-- A rule answers alike on two states that agree in every register it reads. -/
theorem AgreeOff.resultsAgree_ruleOf (h : AgreeOff k m m') {i : Instr} (hr : ∀ r ∈ i.readFields, r.toNat ≠ k.val) :
    ResultsAgree k (ruleOf i m) (ruleOf i m') := by
  have same : ∀ {r : Byte}, r ∈ i.readFields → ∀ {a : Fin 8}, a.val = r.toNat → m'.reg a = m.reg a :=
    fun {r} hmem {a} ha => h.reg_eq fun e => hr r hmem (by rw [← ha, e])
  cases i with
  | nop => exact .ok h
  | hlt => exact .ok h.halt
  | ret => exact h.stackPop_bind fun b u u' hu => .ok (hu.setIp _)
  | ldi r imm => exact .regOfField_bind fun a _ => .ok (h.setReg a _)
  | pop r => exact .regOfField_bind fun a _ => h.stackPop_bind fun b u u' hu => .ok (hu.setReg a _)
  | prn r =>
    refine .regOfField_bind fun a ha => ?_
    rw [same (.head _) ha]
    exact .ok (h.emit _)
  | jmp r =>
    refine .regOfField_bind fun a ha => ?_
    rw [same (.head _) ha]
    exact .ok (h.setIp _)
  | push r =>
    refine .regOfField_bind fun a ha => ?_
    rw [same (.head _) ha]
    exact h.stackPush _
  | call r =>
    refine .regOfField_bind fun a ha => ?_
    rw [same (.head _) ha, h.ip_eq]
    exact (h.stackPush _).bind fun u u' hu => .ok (hu.setIp _)
  | mul ra rb =>
    refine .regOfField_bind fun a ha => .regOfField_bind fun b hb => ?_
    rw [same (.head _) ha, same (.tail _ (.head _)) hb]
    exact .ok (h.setReg a _)
  | div ra rb =>
    refine .regOfField_bind fun a ha => .regOfField_bind fun b hb => ?_
    rw [same (.head _) ha, same (.tail _ (.head _)) hb]
    split
    · exact .error _
    · exact .ok (h.setReg a _)

/-- The rest of a step ends alike when the rule answers alike. -/
theorem AgreeOff.runRule (h : AgreeOff k m m') {n : Nat} {rule : ArchState c → Except Raise (ArchState c)}
    (hrule : ∀ {u u'}, AgreeOff k u u' → ResultsAgree k (rule u) (rule u')) :
    AgreeOff k (m.runRule n rule) (m'.runRule n rule) := by
  have hres := hrule (h.setIp (m.ip + BitVec.ofNat c.bits n))
  generalize e : rule (m.setIp _) = a at hres
  generalize e' : rule (m'.setIp _) = a' at hres
  rw [← h.ip_eq] at e'
  cases hres with
  | error f =>
    rw [runRule_error m e, runRule_error m' e']
    exact h.enterFault f
  | @ok u u' hu =>
    by_cases ht : u.ip = Word.top c.bits
    · rw [runRule_top m e ht, runRule_top m' e' (hu.ip_eq.trans ht)]
      exact h.enterFault _
    · rw [runRule_ok m e ht, runRule_ok m' e' (hu.ip_eq ▸ ht), hu.ip_eq]
      exact hu.setIp _

end

/-! ### The invariant -/

/-- A rule keeps the depth within STACK_CAP. -/
theorem RuleResult_stackFits {i : Instr} {u : ArchState c} (h : RuleResult i m u)
    (hfit : c.stackCap.holds m.stack.length = true) : c.stackCap.holds u.stack.length = true := by
  rcases RuleResult_stack h with e | ⟨-, hc, b, e⟩ | ⟨-, b, e⟩
  · rwa [e]
  · rw [e]
    exact StackCap.holds_succ hfit hc
  · rw [e] at hfit
    exact StackCap.holds_of_succ hfit

/-- A core that is not Faulted has no fault record. -/
theorem ArchState.Inv.no_record (h : m.Inv) (hs : m.status ≠ .faulted) : m.fault = none := by
  simpa using mt h.faultedHasRecord.mpr hs

/-- The state after a reset or a load (R230): Idle, everything but the code in its reset value. -/
theorem inv_idle (hc : c.wf = true) {codeLen : c.Word} {code : Memory} (hcode : Memory.wf code = true)
    (hin : ∀ p ∈ code, p.1 < codeLen.toNat) :
    ArchState.Inv { ArchState.reset c with codeLen := codeLen, code := code } where
  cfgLegal := hc
  codeCanonical := hcode
  codeInside := hin
  stackFits := by cases h : c.stackCap <;> simp [ArchState.reset, StackCap.holds]
  faultedHasRecord := by simp [ArchState.reset]
  recordLegal := fun f hf => by cases hf
  idleIsReset := fun _ => rfl

/-- With the code kept, a Running or Halted state without a record needs only its stack within STACK_CAP. -/
theorem ArchState.Inv.of_started (h : m.Inv) {t : ArchState c} (hcode : t.codeLen = m.codeLen ∧ t.code = m.code)
    (hstack : c.stackCap.holds t.stack.length = true) (hfault : t.fault = none)
    (hs : t.status = .running ∨ t.status = .halted) : t.Inv where
  cfgLegal := h.cfgLegal
  codeCanonical := hcode.2 ▸ h.codeCanonical
  codeInside := by rw [hcode.1, hcode.2]; exact h.codeInside
  stackFits := hstack
  faultedHasRecord := by rcases hs with hs | hs <;> simp [hs, hfault]
  recordLegal := fun f hf => by simp [hfault] at hf
  idleIsReset := fun hidle => by rcases hs with hs | hs <;> simp [hs] at hidle

/-- A fault entry keeps the invariant (R205). -/
theorem ArchState.Inv.of_faultsTo (h : m.Inv) {t : ArchState c} (ht : FaultsTo m t) : t.Inv := by
  obtain ⟨f, hf, rfl⟩ := ht
  exact {
    cfgLegal := h.cfgLegal
    codeCanonical := h.codeCanonical
    codeInside := h.codeInside
    stackFits := h.stackFits
    faultedHasRecord := by simp
    recordLegal := fun g hg => by cases hg; exact ⟨rfl, hf⟩
    idleIsReset := fun hidle => by cases hidle }

/-- An instruction that completes on a Running core keeps the invariant. -/
theorem ArchState.Inv.of_completesTo (h : m.Inv) (hs : m.status = .running) {i : Instr} {t : ArchState c}
    (ht : CompletesTo i m t) : t.Inv := by
  have hnone : m.fault = none := h.no_record (by simp [hs])
  have hstack : c.stackCap.holds t.stack.length = true := by
    obtain ⟨u, hu, -, rfl⟩ := ht
    simpa using RuleResult_stackFits hu (by simpa using h.stackFits)
  rcases ht.status_cases with ⟨hst, hft⟩ | ⟨-, hst, hft⟩
  · exact h.of_started ht.code_eq hstack (hft.trans hnone) (.inl (hst.trans hs))
  · exact h.of_started ht.code_eq hstack (hft.trans hnone) (.inr hst)

/-- The reset input keeps the invariant. -/
theorem ArchState.Inv.resetInput (h : m.Inv) : m.resetInput.Inv :=
  inv_idle h.cfgLegal h.codeCanonical h.codeInside

/-- The run command keeps the invariant. -/
theorem ArchState.Inv.runCommand (h : m.Inv) : m.runCommand.Inv := by
  rcases runCommand_cases m with ⟨hs, e⟩ | ⟨-, e⟩ <;> rw [e]
  · exact h.of_started ⟨rfl, rfl⟩ h.stackFits (h.no_record (by simp [hs])) (.inl rfl)
  · exact h

/-! ### Loading code -/

/-- The code length of a loaded image is the number of its bytes, when the image fits (R10). -/
theorem toNat_ofNat_length {bytes : List Byte} (h : bytes.length ≤ 2 ^ c.bits - 1) :
    (BitVec.ofNat c.bits bytes.length).toNat = bytes.length := by
  have hpos := Nat.two_pow_pos c.bits
  rw [BitVec.toNat_ofNat, Nat.mod_eq_of_lt (by omega)]

/-- A load is refused while Running, refused when the image is too long, and performed otherwise (R34, R75). -/
theorem loadCode_cases (m : ArchState c) (bytes : List Byte) :
    (m.status = .running ∧ m.loadCode bytes = .error .coreRunning) ∨
    (m.status ≠ .running ∧ 2 ^ c.bits - 1 < bytes.length ∧
      m.loadCode bytes = .error (.invalidArgumentValue .tooLong)) ∨
    (m.status ≠ .running ∧ bytes.length ≤ 2 ^ c.bits - 1 ∧
      m.loadCode bytes = .ok { ArchState.reset c with
        codeLen := BitVec.ofNat c.bits bytes.length, code := Memory.ofBytes 0 bytes }) := by
  by_cases hs : m.status = .running
  · exact .inl ⟨hs, by simp [ArchState.loadCode, hs]⟩
  · by_cases hl : 2 ^ c.bits - 1 < bytes.length
    · exact .inr (.inl ⟨hs, hl, by simp [ArchState.loadCode, hs, hl]⟩)
    · exact .inr (.inr ⟨hs, Nat.le_of_not_lt hl, by simp [ArchState.loadCode, hs, hl]⟩)

/-- Loading a text that parses is loading its bytes. -/
theorem loadImage_of_parse {text bytes : List Byte} (h : parseImage text = .ok bytes) :
    m.loadImage text = m.loadCode bytes := by
  simp [ArchState.loadImage, h]

/-- A load that is performed leaves a state with the invariant. -/
theorem ArchState.Inv.loadCode (h : m.Inv) {bytes : List Byte} {t : ArchState c} (e : m.loadCode bytes = .ok t) :
    t.Inv := by
  rcases loadCode_cases m bytes with ⟨-, e'⟩ | ⟨-, -, e'⟩ | ⟨-, hl, e'⟩ <;> rw [e'] at e <;> cases e
  refine inv_idle h.cfgLegal (Memory.ofBytes_wf 0 bytes) fun p hp => ?_
  rw [toNat_ofNat_length hl]
  have := Memory.mem_ofBytes hp
  omega

/-! ### The obligations -/

/-- Settles O38: a step that does nothing, halts at the end of the code, faults or completes keeps the invariant. -/
theorem stepKeepsTheInvariant : Obligations.StepKeepsTheInvariant := by
  rintro ⟨c, m⟩ s (hinv : m.Inv) hstep
  obtain ⟨t, rfl, hcases⟩ := step_next_cases hstep
  change t.Inv
  rcases hcases with ⟨-, rfl⟩ | ⟨hs, ⟨-, rfl⟩ | hfault | ⟨i, -, hdone⟩⟩
  · exact hinv
  · exact hinv.of_started ⟨rfl, rfl⟩ hinv.stackFits (hinv.no_record (by simp [hs])) (.inr rfl)
  · exact hinv.of_faultsTo hfault
  · exact hinv.of_completesTo hs hdone

/-- Settles O31: a fault entry keeps every register, a completed rule all but its destination. -/
theorem onlyTheDestinationRegisterChanges : Obligations.OnlyTheDestinationRegisterChanges := by
  intro c m t i h k hk hldi hpop hmul hdiv
  have hdest : ∀ r ∈ i.destField, r.toNat ≠ k := by
    intro r hr
    rcases Instr.writes_of_mem_destField hr with ⟨imm, hi⟩ | hi | ⟨rb, hi⟩ | ⟨rb, hi⟩
    · exact hldi r imm hi
    · exact hpop r hi
    · exact hmul r rb hi
    · exact hdiv r rb hi
  rcases exec_next_cases h with ⟨f, -, rfl⟩ | ⟨u, hu, -, rfl⟩
  · rfl
  · exact RuleResult_x hu hk hdest

/-- Settles O32: the two runs agree off the register all the way through the step. -/
theorem unreadRegistersDoNotMatter : Obligations.UnreadRegistersDoNotMatter := by
  intro c m t i k hk v hone htwo h
  have hread : ∀ r ∈ i.readFields, r.toNat ≠ k := by
    intro r hr
    rcases Instr.reads_of_mem_readFields hr with hi | ⟨ra, rb, hi, rfl | rfl⟩
    · exact hone r hi
    · exact (htwo _ _ hi).1
    · exact (htwo _ _ hi).2
  have hagree : AgreeOff ⟨k, hk⟩ m (m.setReg ⟨k, hk⟩ v) := ⟨_, rfl, fun j hj => reg_setReg_other m hj v⟩
  obtain ⟨y, hrun, hy⟩ := hagree.runRule (n := i.operandBytes) fun hu => hu.resultsAgree_ruleOf hread
  have h' := exec_eq_runRule (m.setReg ⟨k, hk⟩ v) i
  rw [hrun] at h'
  rw [exec_eq_runRule] at h
  cases h
  exact ⟨_, h', rfl, rfl, rfl, rfl, rfl, rfl, rfl, fun j hj hne => hy ⟨j, hj⟩ (by simpa using hne)⟩

/-- Settles O33, by the stack's frame of each rule. -/
theorem onlyTheTopOfTheStackChanges : Obligations.OnlyTheTopOfTheStackChanges := by
  intro c m t i h
  rcases exec_next_cases h with ⟨f, -, rfl⟩ | ⟨u, hu, -, rfl⟩
  · exact .inl rfl
  · rcases RuleResult_stack hu with hs | ⟨hi, -, hs⟩ | hpop
    · exact .inl hs
    · exact .inr (.inl ⟨hi, hs⟩)
    · exact .inr (.inr hpop)

/-- Settles O34, by the output's frame of each rule. -/
theorem onlyPrnWritesTheOutput : Obligations.OnlyPrnWritesTheOutput := by
  refine ⟨fun c m t i h => ?_, fun c m => ⟨rfl, rfl⟩⟩
  rcases exec_next_cases h with ⟨f, -, rfl⟩ | ⟨u, hu, -, rfl⟩
  · exact .inl rfl
  · simpa using RuleResult_out hu

/-- Settles O35: what an instruction, a step and the host's actions do to status and record. -/
theorem statusChangesOnlyByHltOrFault : Obligations.StatusChangesOnlyByHltOrFault := by
  refine fun c m => ⟨fun i t h => ?_, fun t h => ?_, ?_, rfl, rfl⟩
  · rcases exec_next_cases h with ⟨f, -, rfl⟩ | hdone
    · exact .inr (.inr ⟨f.kind, f.info, rfl⟩)
    · rcases hdone.status_cases with hkeep | hhlt
      · exact .inl hkeep
      · exact .inr (.inl hhlt)
  · obtain ⟨t', ht, hcases⟩ := step_next_cases h
    cases ht
    rcases hcases with ⟨-, rfl⟩ | ⟨hs, ⟨hend, rfl⟩ | ⟨f, -, rfl⟩ | ⟨i, hbyte, hdone⟩⟩
    · exact .inl ⟨rfl, rfl⟩
    · exact .inr (.inl ⟨hs, hend, rfl⟩)
    · exact .inr (.inr (.inr ⟨hs, f.kind, f.info, rfl⟩))
    · rcases hdone.status_cases with hkeep | ⟨rfl, hhalt⟩
      · exact .inl hkeep
      · exact .inr (.inr (.inl ⟨hs, hbyte, hhalt⟩))
  · rcases runCommand_cases m with ⟨hs, e⟩ | ⟨-, e⟩ <;> rw [e]
    · exact ⟨rfl, .inr ⟨hs, rfl⟩⟩
    · exact ⟨rfl, .inl rfl⟩

/-- Settles O36: the code's frame of instructions, steps and host actions, and the refusal of a load. -/
theorem nothingWritesCodeDuringARun : Obligations.NothingWritesCodeDuringARun := by
  intro c m
  have reads : ∀ {t : ArchState c}, t.codeLen = m.codeLen ∧ t.code = m.code →
      t.codeLen = m.codeLen ∧ ∀ a : Nat, Memory.read t.code a = Memory.read m.code a :=
    fun ⟨hlen, hcode⟩ => ⟨hlen, fun a => by rw [hcode]⟩
  refine ⟨fun i t h => reads ?_, fun t h => reads ?_, ?_, ⟨rfl, rfl⟩, fun hs bytes => ?_⟩
  · rcases exec_next_cases h with hfault | hdone
    · exact hfault.code_eq
    · exact hdone.code_eq
  · obtain ⟨t', ht, hcases⟩ := step_next_cases h
    cases ht
    rcases hcases with ⟨-, rfl⟩ | ⟨-, ⟨-, rfl⟩ | hfault | ⟨i, -, hdone⟩⟩
    · exact ⟨rfl, rfl⟩
    · exact ⟨rfl, rfl⟩
    · exact hfault.code_eq
    · exact hdone.code_eq
  · rcases runCommand_cases m with ⟨-, e⟩ | ⟨-, e⟩ <;> rw [e] <;> exact ⟨rfl, rfl⟩
  · rcases loadCode_cases m bytes with ⟨-, e⟩ | ⟨hn, -⟩ | ⟨hn, -⟩
    · exact e
    · exact absurd hs hn
    · exact absurd hs hn

/-- Settles O39: each host action keeps the invariant. -/
theorem hostActionsKeepTheInvariant : Obligations.HostActionsKeepTheInvariant :=
  fun _ _ hinv => ⟨hinv.runCommand, hinv.resetInput, fun _ _ e => hinv.loadCode e⟩

/-- Settles O44: the load is performed, and the loaded memory reads as the bytes. -/
theorem loadReplacesTheWholeCode : Obligations.LoadReplacesTheWholeCode := by
  intro c m bytes hs hl
  rcases loadCode_cases m bytes with ⟨hr, -⟩ | ⟨-, hlong, -⟩ | ⟨-, -, e⟩
  · exact absurd hr hs
  · omega
  · refine ⟨_, e, fun text htext => (loadImage_of_parse htext).trans e, toNat_ofNat_length hl, fun k hk => ?_,
      fun k hk => Vector.getElem_replicate hk, rfl, rfl, rfl, rfl, rfl⟩
    simpa using Memory.read_ofBytes 0 bytes k hk

/-- Settles O41: the reset input's fields, each by the law of that field. -/
theorem resetSetsEveryValueButCode : Obligations.ResetSetsEveryValueButCode :=
  ⟨fun _ _ => ⟨fun _ hk => Vector.getElem_replicate hk, rfl, rfl, rfl, rfl, rfl, rfl, rfl⟩, fun _ => ⟨rfl, rfl⟩⟩

/-- Settles O42, by the two cases of the run command. -/
theorem runCommandStartsOnlyFromIdle : Obligations.RunCommandStartsOnlyFromIdle := by
  intro c m
  rcases runCommand_cases m with ⟨hs, e⟩ | ⟨hs, e⟩
  · exact ⟨fun _ => e, fun h => by simp [hs] at h⟩
  · exact ⟨fun h => absurd h hs, fun _ => e⟩

/-- Settles O43, status by status. -/
theorem statusOutputShowsTheOutcome : Obligations.StatusOutputShowsTheOutcome := by
  intro c m
  refine ⟨fun hs => ?_, fun hs => ?_, fun hs => ?_, fun f hs hf => ?_, ?_, ?_, ?_⟩
  · simp [ArchState.statusOutput, RunStatus.code, hs]
  · simp [ArchState.statusOutput, RunStatus.code, hs]
  · simp [ArchState.statusOutput, RunStatus.code, hs]
  · simp [ArchState.statusOutput, RunStatus.code, hs, hf]
  · simp [ArchState.terminated]
  · simp [ArchState.runOver]
  · exact ⟨rfl, rfl, rfl, rfl, rfl, rfl, rfl⟩

end Sys2Proof.Machine
end

section
/-! PROOFS. The memory family: the program image format, line by line (20_memory.md section 6), and the decimal output
(R76). A text is read as its retained lines, each parsed on its own, so that line numbers appear only in the error. -/

namespace Sys2Proof.Machine

/-! ### Lines -/

/-- Splitting at line feeds is the library's split (R70). -/
theorem splitLines_eq_splitOnP (text : List Byte) : splitLines text = text.splitOnP (· == charLF) := by
  induction text with
  | nil => rfl
  | cons b rest ih =>
    rw [List.splitOnP_cons_eq_if_modifyHead, splitLines, ih]
    by_cases hb : b = charLF
    · simp [hb]
    · obtain ⟨line, more, hsplit⟩ := List.exists_cons_of_ne_nil (List.splitOnP_ne_nil (· == charLF) rest)
      simp [hb, hsplit]

/-- What follows a line feed is split on its own. -/
theorem splitLines_append_LF (text rest : List Byte) :
    splitLines (text ++ charLF :: rest) = splitLines text ++ splitLines rest := by
  simp only [splitLines_eq_splitOnP]
  exact List.splitOnP_append_cons text rest (beq_self_eq_true charLF)

/-- A text without a line feed is one line. -/
theorem splitLines_of_no_LF {line : List Byte} (h : ∀ b ∈ line, b ≠ charLF) : splitLines line = [line] := by
  rw [splitLines_eq_splitOnP]
  exact List.splitOnP_eq_singleton fun b hb => beq_false_of_ne (h b hb)

/-- `cr` is the end of the written line whose content is `line`: the one carriage return that is removed, or nothing
after a content that does not itself end in one (R70). -/
def EndsLine (line cr : List Byte) : Prop := cr = [charCR] ∨ (cr = [] ∧ line.getLast? ≠ some charCR)

/-- The content of a written line. -/
theorem stripCR_of_endsLine {line cr : List Byte} (h : EndsLine line cr) : stripCR (line ++ cr) = line := by
  rcases h with rfl | ⟨rfl, hlast⟩
  · simp [stripCR]
  · simp [stripCR, hlast]

/-- A carriage return is no line feed, so a written line is one line. -/
theorem splitLines_of_endsLine {line cr : List Byte} (hno : ∀ b ∈ line, b ≠ charLF) (hcr : EndsLine line cr) :
    splitLines (line ++ cr) = [line ++ cr] := by
  refine splitLines_of_no_LF fun b hb => ?_
  rcases List.mem_append.mp hb with hline | hend
  · exact hno b hline
  · rcases hcr with rfl | ⟨rfl, -⟩
    · rw [List.mem_singleton.mp hend]
      decide
    · cases hend

/-! ### Retained lines -/

/-- The content of those lines that are not skipped (R70, R71). -/
def keptLines (lines : List (List Byte)) : List (List Byte) :=
  (lines.map stripCR).filter fun line => !skipped line

/-- The retained lines of a text. -/
def retained (text : List Byte) : List (List Byte) := keptLines (splitLines text)

/-- The retained lines on both sides of a line feed. -/
@[simp] theorem retained_append_LF (text rest : List Byte) :
    retained (text ++ charLF :: rest) = retained text ++ retained rest := by
  simp [retained, keptLines, splitLines_append_LF]

/-- A written line is retained unless it is skipped. -/
theorem retained_of_endsLine {line cr : List Byte} (hno : ∀ b ∈ line, b ≠ charLF) (hcr : EndsLine line cr) :
    retained (line ++ cr) = if skipped line then [] else [line] := by
  simp [retained, keptLines, splitLines_of_endsLine hno hcr, stripCR_of_endsLine hcr, List.filter_singleton]

/-- A line is skipped when it begins with `#` or is shorter than 8 bytes (R71). -/
theorem skipped_iff (line : List Byte) : skipped line = true ↔ line.head? = some charHash ∨ line.length < 8 := by
  simp [skipped]

/-- A retained line stays one when a text that ends its last line is put before it. -/
theorem mem_retained_after {before text line : List Byte} (hb : before = [] ∨ before.getLast? = some charLF)
    (h : line ∈ retained text) : line ∈ retained (before ++ text) := by
  rcases hb with rfl | hlast
  · exact h
  · obtain ⟨init, rfl⟩ := List.getLast?_eq_some_iff.mp hlast
    simp [h]

/-- A retained line stays one when a text that begins with a line feed is put after it. -/
theorem mem_retained_before {after text line : List Byte} (ha : after = [] ∨ after.head? = some charLF)
    (h : line ∈ retained text) : line ∈ retained (text ++ after) := by
  rcases ha with rfl | hhead
  · simpa using h
  · obtain ⟨rest, rfl⟩ := List.head?_eq_some_iff.mp hhead
    simp [h]

/-! ### Parsing reads each retained line on its own -/

/-- The lines from one on: up to the number an error carries, the bytes of the retained lines in order (R72, R73). -/
theorem linesBytes_cases (lines : List (List Byte)) (n : Nat) :
    (∃ bs, (keptLines lines).mapM lineByte = some bs ∧ linesBytes n lines = .ok bs) ∨
    ((keptLines lines).mapM lineByte = none ∧
      ∃ k, linesBytes n lines = .error (.invalidArgumentValue (.badLine k))) := by
  induction lines generalizing n with
  | nil => exact .inl ⟨[], rfl, rfl⟩
  | cons raw rest ih =>
    by_cases hskip : skipped (stripCR raw) = true
    · simpa [keptLines, linesBytes, hskip] using ih (n + 1)
    · have hkept : keptLines (raw :: rest) = stripCR raw :: keptLines rest := by simp [keptLines, hskip]
      cases hbyte : lineByte (stripCR raw) with
      | none => exact .inr ⟨by simp [hkept, hbyte], n, by simp [linesBytes, hskip, hbyte]⟩
      | some b =>
        rcases ih (n + 1) with ⟨bs, hbs, hok⟩ | ⟨hnone, k, herr⟩
        · exact .inl ⟨b :: bs, by simp [hkept, hbyte, hbs], by simp [linesBytes, hskip, hbyte, hok]⟩
        · exact .inr ⟨by simp [hkept, hbyte, hnone], k, by simp [linesBytes, hskip, hbyte, herr]⟩

/-- A text parses as the bytes of its retained lines, or names a bad one (R72, R73). -/
theorem parseImage_cases (text : List Byte) :
    (∃ bs, (retained text).mapM lineByte = some bs ∧ parseImage text = .ok bs) ∨
    ((retained text).mapM lineByte = none ∧
      ∃ k, parseImage text = .error (.invalidArgumentValue (.badLine k))) :=
  linesBytes_cases (splitLines text) 0

/-- What a text parses as, without the error's reason. -/
theorem toOption_parseImage (text : List Byte) : (parseImage text).toOption = (retained text).mapM lineByte := by
  rcases parseImage_cases text with ⟨bs, hbs, hok⟩ | ⟨hnone, k, herr⟩
  · rw [hbs, hok, Except.toOption]
  · rw [hnone, herr, Except.toOption]

/-- A text whose retained lines all have a byte parses as these bytes. -/
theorem parseImage_of_mapM {text bs : List Byte} (h : (retained text).mapM lineByte = some bs) :
    parseImage text = .ok bs := by
  rcases parseImage_cases text with ⟨bs', hbs, hok⟩ | ⟨hnone, -⟩
  · rw [hok, Option.some.inj (hbs.symm.trans h)]
  · simp [hnone] at h

/-- Reading a list fails when reading one member does. -/
theorem mapM_eq_none_of_mem {α β : Type} {f : α → Option β} {l : List α} {a : α} (ha : a ∈ l) (hf : f a = none) :
    l.mapM f = none := by
  obtain ⟨l₁, l₂, rfl⟩ := List.append_of_mem ha
  simp [hf]

/-- A retained line without a byte fails the parse (R73). -/
theorem parseImage_of_bad_line {text line : List Byte} (hmem : line ∈ retained text) (hbad : lineByte line = none) :
    ∃ why, parseImage text = .error (.invalidArgumentValue why) := by
  rcases parseImage_cases text with ⟨bs, hbs, -⟩ | ⟨-, k, herr⟩
  · simp [mapM_eq_none_of_mem hmem hbad] at hbs
  · exact ⟨_, herr⟩

/-- A text that does not parse is not loaded (R73). -/
theorem loadImage_of_parse_error {c : Config} {m : ArchState c} {text : List Byte} {e : LoadError}
    (h : parseImage text = .error e) : m.loadImage text = .error e := by
  simp [ArchState.loadImage, h]

/-! ### The byte of a line -/

/-- A bad character anywhere leaves no value (R73). -/
theorem binValue_eq_none {digits : List Byte} {d : Byte} (hmem : d ∈ digits) (hbad : binDigit d = none) (acc : Nat) :
    binValue acc digits = none := by
  induction digits generalizing acc with
  | nil => cases hmem
  | cons d' rest ih =>
    rcases List.mem_cons.mp hmem with rfl | hrest
    · simp [binValue, hbad]
    · cases hd : binDigit d' with
      | none => simp [binValue, hd]
      | some v => simpa [binValue, hd] using ih hrest _

/-- A bad character among the first 8 leaves no byte (R73). -/
theorem lineByte_eq_none {ln : List Byte} {k : Nat} (h : k < ln.length) (hk : k < 8) (h0 : ln[k] ≠ charZero)
    (h1 : ln[k] ≠ charOne) : lineByte ln = none := by
  have hmem : ln[k] ∈ ln.take 8 := List.mem_take_iff_getElem.mpr ⟨k, by omega, rfl⟩
  have hbad : binDigit ln[k] = none := by simp [binDigit, h0, h1]
  simp [lineByte, binValue_eq_none hmem hbad]

/-- The digit character of a bit (R72). -/
def bitChar (d : Bool) : Byte := if d then charOne else charZero

/-- A bit's digit character denotes it. -/
@[simp] theorem binDigit_bitChar (d : Bool) : binDigit (bitChar d) = some d.toNat := by
  cases d <;> rfl

/-- The number that bits denote, the first the most significant, continuing from `acc`. -/
def bitsValue (acc : Nat) (bits : List Bool) : Nat := bits.foldl (fun a d => 2 * a + d.toNat) acc

/-- Eight bits by their weights, the first being bit 7. -/
theorem bitsValue_eight (d7 d6 d5 d4 d3 d2 d1 d0 : Bool) :
    bitsValue 0 [d7, d6, d5, d4, d3, d2, d1, d0] = 128 * d7.toNat + 64 * d6.toNat + 32 * d5.toNat + 16 * d4.toNat +
      8 * d3.toNat + 4 * d2.toNat + 2 * d1.toNat + d0.toNat := by
  simp only [bitsValue, List.foldl_cons, List.foldl_nil]
  omega

/-- Each bit doubles the numbers there can be. -/
theorem bitsValue_lt (bits : List Bool) (acc : Nat) : bitsValue acc bits < (acc + 1) * 2 ^ bits.length := by
  induction bits generalizing acc with
  | nil => simp [bitsValue]
  | cons d rest ih =>
    have hd := d.toNat_lt
    calc bitsValue acc (d :: rest) < (2 * acc + d.toNat + 1) * 2 ^ rest.length := ih _
      _ ≤ (acc + 1) * 2 * 2 ^ rest.length := Nat.mul_le_mul_right _ (by omega)
      _ = (acc + 1) * 2 ^ (d :: rest).length := by rw [List.length_cons, Nat.pow_succ']; ring

/-- The digit characters of bits denote their number. -/
theorem binValue_bitChars (bits : List Bool) (acc : Nat) :
    binValue acc (bits.map bitChar) = some (bitsValue acc bits) := by
  induction bits generalizing acc with
  | nil => rfl
  | cons d rest ih =>
    rw [List.map_cons, binValue, binDigit_bitChar]
    exact ih _

/-- The byte of a line that begins with the digit characters of 8 bits (R72). -/
theorem lineByte_bitChars {bits : List Bool} (h8 : bits.length = 8) (tail : List Byte) :
    lineByte (bits.map bitChar ++ tail) = some (BitVec.ofNat 8 (bitsValue 0 bits)) := by
  rw [lineByte, List.take_left' (by simp [h8]), binValue_bitChars, Option.map_some]

/-- No digit character of a bit is `#`, a line feed or a carriage return. -/
theorem bitChar_ne (d : Bool) : bitChar d ≠ charHash ∧ bitChar d ≠ charLF ∧ bitChar d ≠ charCR := by
  cases d <;> decide

/-- A line that begins with 8 digit characters is retained. -/
theorem retained_bitChars {bits : List Bool} (h8 : bits.length = 8) {tail cr : List Byte}
    (hno : ∀ b ∈ tail, b ≠ charLF) (hcr : EndsLine tail cr) :
    retained (bits.map bitChar ++ tail ++ cr) = [bits.map bitChar ++ tail] := by
  have hline : ∀ b ∈ bits.map bitChar ++ tail, b ≠ charLF := by
    intro b hb
    rcases List.mem_append.mp hb with hbit | htail
    · obtain ⟨d, -, rfl⟩ := List.mem_map.mp hbit
      exact (bitChar_ne d).2.1
    · exact hno b htail
  have hend : EndsLine (bits.map bitChar ++ tail) cr := by
    refine hcr.imp_right fun ⟨hnil, hlast⟩ => ⟨hnil, ?_⟩
    cases htail : tail.getLast? with
    | some b => simpa [List.getLast?_append, htail] using hlast
    | none => simp [List.getLast?_append, htail, List.getLast?_map, (bitChar_ne _).2.2]
  have hkept : ¬ skipped (bits.map bitChar ++ tail) = true := by
    rw [skipped_iff]
    obtain ⟨d, rest, rfl⟩ := List.exists_cons_of_length_eq_add_one h8
    simp [(bitChar_ne d).1] at h8 ⊢
    omega
  rw [retained_of_endsLine hline hend, if_neg hkept]

/-- The bits of a byte, bit 7 first. -/
def byteBits (b : Byte) : List Bool := [7, 6, 5, 4, 3, 2, 1, 0].map b.getLsbD

/-- The bits of a byte denote it. -/
theorem bitsValue_byteBits (b : Byte) : bitsValue 0 (byteBits b) = b.toNat := by
  have hlt : b.toNat < 256 := b.isLt
  simp only [byteBits, List.map_cons, List.map_nil, bitsValue_eight, ← BitVec.testBit_toNat, Nat.toNat_testBit,
    Nat.reducePow]
  omega

/-- The retained lines of an image are read as its bytes (R92). -/
theorem mapM_lineByte_imageOf (bytes : List Byte) : (retained (imageOf bytes)).mapM lineByte = some bytes := by
  induction bytes with
  | nil => rfl
  | cons b rest ih =>
    have himage : imageOf (b :: rest) = (byteBits b).map bitChar ++ charLF :: imageOf rest := by
      simp [imageOf, imageLine, byteBits, bitChar]
    have hline : retained ((byteBits b).map bitChar) = [(byteBits b).map bitChar] := by
      simpa using retained_bitChars (bits := byteBits b) rfl (tail := []) (cr := []) (by simp) (.inr (by simp))
    have hbyte : lineByte ((byteBits b).map bitChar) = some b := by
      simpa [bitsValue_byteBits] using lineByte_bitChars (bits := byteBits b) rfl []
    rw [himage, retained_append_LF, hline]
    simp [hbyte, ih]

/-! ### Decimal output -/

/-- Every WORD_BITS is at most 64 (R8). -/
theorem bits_le_sixtyFour (c : Config) : c.bits ≤ 64 := by
  cases h : c.wordSize <;> simp [Config.bits, WordSize.bits, h]

/-- A decimal digit character continues the value by its digit. -/
theorem decimalValue_digitChar {d : Nat} (hd : d < 10) (acc : Nat) (rest : List Char) :
    decimalValue acc (digitChar d :: rest) = decimalValue (10 * acc + d) rest := by
  have hchar : ∀ d < 10, ('0' ≤ digitChar d ∧ digitChar d ≤ '9') ∧ (digitChar d).toNat - 48 = d := by decide
  obtain ⟨hrange, hval⟩ := hchar d hd
  rw [decimalValue, if_pos hrange, hval]

/-- The digits put before `acc` denote the number that `acc` continues. -/
theorem decimalValue_decimalAux {fuel n : Nat} (h : n < 10 ^ fuel) (acc : List Char) :
    decimalValue 0 (decimalAux fuel n acc) = decimalValue n acc := by
  induction fuel generalizing n acc with
  | zero =>
    obtain rfl : n = 0 := by simpa using h
    rfl
  | succ k ih =>
    rw [decimalAux]
    split
    · next hlt => rw [decimalValue_digitChar hlt, Nat.mul_zero, Nat.zero_add]
    · rw [ih (by rw [Nat.pow_succ] at h; omega), decimalValue_digitChar (Nat.mod_lt n (by decide)), Nat.div_add_mod]

/-- A number other than 0 begins with a digit other than 0. -/
theorem decimalAux_head {fuel n : Nat} (hpos : 0 < n) (h : n < 10 ^ fuel) (acc : List Char) :
    ∃ d, 0 < d ∧ d < 10 ∧ (decimalAux fuel n acc).head? = some (digitChar d) := by
  induction fuel generalizing n acc with
  | zero => simp at h; omega
  | succ k ih =>
    rw [decimalAux]
    split
    · next hlt => exact ⟨n, hpos, hlt, rfl⟩
    · exact ih (by omega) (by rw [Nat.pow_succ] at h; omega) _

/-- Only the digit 0 is written `0`. -/
theorem digitChar_ne_zero {d : Nat} (hpos : 0 < d) (hd : d < 10) : digitChar d ≠ '0' := by
  have hchar : ∀ d < 10, 0 < d → digitChar d ≠ '0' := by decide
  exact hchar d hd hpos

/-- What `decimal` writes: digits that denote the number, the first not 0 unless the number is 0 (R76). -/
theorem decimal_spec {n : Nat} (h : n < 10 ^ 20) :
    decimal n ≠ [] ∧ decimalValue 0 (decimal n) = some n ∧ ((decimal n).head? = some '0' → decimal n = ['0']) := by
  have hval : decimalValue 0 (decimal n) = some n := decimalValue_decimalAux h []
  rcases Nat.eq_zero_or_pos n with rfl | hpos
  · exact ⟨by decide, hval, fun _ => rfl⟩
  · obtain ⟨d, hd0, hd, hhead⟩ := decimalAux_head hpos h []
    have hhead : (decimal n).head? = some (digitChar d) := hhead
    refine ⟨fun hnil => ?_, hval, fun h0 => ?_⟩
    · simp [hnil] at hhead
    · exact absurd (Option.some.inj (hhead.symm.trans h0)) (digitChar_ne_zero hd0 hd)

/-! ### The obligations -/

/-- Settles O48: each image line is retained and read as its byte. -/
theorem imageOfBytesLoadsAsThem : Obligations.ImageOfBytesLoadsAsThem := by
  intro bytes
  have hparse : parseImage (imageOf bytes) = .ok bytes := parseImage_of_mapM (mapM_lineByte_imageOf bytes)
  refine ⟨hparse, fun c m hs hl => ?_⟩
  obtain ⟨t, hload, -, hlen, hread, -, hip, hidle, -⟩ := loadReplacesTheWholeCode c m bytes hs hl
  refine ⟨t, (loadImage_of_parse hparse).trans hload, hip, hidle, fun k => ?_⟩
  by_cases hk : k < bytes.length
  · simp [ArchState.byteAt, hip, hlen, hk, hread k hk]
  · simp [ArchState.byteAt, hip, hlen, hk]

/-- Settles O49: a skipped line leaves no retained line. -/
theorem skippedLinesContributeNothing : Obligations.SkippedLinesContributeNothing := by
  intro ln cr rest hno (hcr : EndsLine ln cr) hskip
  have hnone : retained (ln ++ cr) = [] := by
    rw [retained_of_endsLine hno hcr, if_pos ((skipped_iff ln).mpr hskip)]
  refine ⟨?_, parseImage_of_mapM (by rw [hnone]; rfl)⟩
  change (parseImage (ln ++ cr ++ charLF :: rest)).toOption = _
  rw [toOption_parseImage, toOption_parseImage, retained_append_LF, hnone, List.nil_append]

/-- Settles O50: the line is retained, and its byte is the number of its 8 bits. -/
theorem retainedLineContributesItsByte : Obligations.RetainedLineContributesItsByte := by
  intro d7 d6 d5 d4 d3 d2 d1 d0 tail cr rest hno (hcr : EndsLine tail cr)
  have hline := retained_bitChars (bits := [d7, d6, d5, d4, d3, d2, d1, d0]) rfl hno hcr
  have hbyte := lineByte_bitChars (bits := [d7, d6, d5, d4, d3, d2, d1, d0]) rfl tail
  have hlt := bitsValue_lt [d7, d6, d5, d4, d3, d2, d1, d0] 0
  refine ⟨BitVec.ofNat 8 (bitsValue 0 [d7, d6, d5, d4, d3, d2, d1, d0]), ?_, ?_, parseImage_of_mapM ?_⟩
  · rw [← bitsValue_eight, BitVec.toNat_ofNat, Nat.mod_eq_of_lt (by simpa using hlt)]
  · change (parseImage ([d7, d6, d5, d4, d3, d2, d1, d0].map bitChar ++ tail ++ cr ++ charLF :: rest)).toOption = _
    rw [toOption_parseImage, toOption_parseImage, retained_append_LF, hline, List.singleton_append, List.mapM_cons,
      hbyte, Option.map_eq_bind]
    rfl
  · change (retained ([d7, d6, d5, d4, d3, d2, d1, d0].map bitChar ++ tail ++ cr)).mapM lineByte = _
    rw [hline, List.mapM_cons, hbyte]
    rfl

/-- Settles O51: the line is retained wherever it stands, and has no byte. -/
theorem badDigitFailsTheWholeLoad : Obligations.BadDigitFailsTheWholeLoad := by
  intro c m before ln cr after k h hbefore hno (hcr : EndsLine ln cr) hafter hhash hlen hk h0 h1
  have hkept : ¬ skipped ln = true := by
    rw [skipped_iff]
    exact not_or.mpr ⟨hhash, Nat.not_lt.mpr hlen⟩
  have hline : ln ∈ retained (ln ++ cr) := by simp [retained_of_endsLine hno hcr, hkept]
  have hmem : ln ∈ retained (before ++ ln ++ cr ++ after) := by
    simpa using mem_retained_before hafter (mem_retained_after hbefore hline)
  obtain ⟨why, herr⟩ := parseImage_of_bad_line hmem (lineByte_eq_none h hk h0 h1)
  exact ⟨⟨why, herr⟩, fun _ => ⟨why, loadImage_of_parse_error herr⟩, fun _ => ⟨_, loadImage_of_parse_error herr⟩⟩

/-- Settles O52: twenty digits are enough for every width. -/
theorem outputIsRenderedInDecimal : Obligations.OutputIsRenderedInDecimal := by
  intro c m v
  have hv : v.toNat < 10 ^ 20 :=
    calc v.toNat < 2 ^ c.bits := v.isLt
      _ ≤ 2 ^ 64 := Nat.pow_le_pow_right (by decide) (bits_le_sixtyFour c)
      _ < 10 ^ 20 := by decide
  exact ⟨⟨decimal v.toNat, rfl, decimal_spec hv⟩, by simp [ArchState.render]⟩

/-- Settles O45, by the cases of a load. -/
theorem tooLongAnImageIsRefused : Obligations.TooLongAnImageIsRefused := by
  intro c m bytes hs hl
  rcases loadCode_cases m bytes with ⟨hr, -⟩ | ⟨-, -, e⟩ | ⟨-, hfit, -⟩
  · exact absurd hr hs
  · exact ⟨e, fun text htext => (loadImage_of_parse htext).trans e⟩
  · omega

end Sys2Proof.Machine
end

section
/-! PROOFS. The encoding family: decoder and encoder are inverse (30_encoding.md sections 1 to 3), and the assembly
text of an instruction reads back (section 4). A written program is cut into statements, a statement into words, a
word into operands; each cut is the library's split, and no written part contains a character that is cut at. -/

namespace Sys2Proof

/-! ### Decoding the bytes of an instruction -/

/-- An instruction has as many operand bytes as its format (R80, R81). -/
theorem operands_length (i : Instr) : i.operands.length = i.opcode.format.operandBytes := by
  cases i <;> rfl

/-- An instruction is built from its opcode and its operand bytes, whatever bytes follow them (R82, R85). -/
theorem buildInstr_operands_append (i : Instr) (rest : List Byte) :
    buildInstr i.opcode ((i.operands ++ rest).getD 0 0) ((i.operands ++ rest).getD 1 0) = i := by
  cases i <;> rfl

/-- The operand bytes of a built instruction are the first ones, as many as its format has (R81, R85). -/
theorem operands_buildInstr {o : Opcode} {bs : List Byte} (h : o.format.operandBytes ≤ bs.length) :
    (buildInstr o (bs.getD 0 0) (bs.getD 1 0)).operands = bs.take o.format.operandBytes := by
  match o, bs, h with
  | .nop, _, _ | .hlt, _, _ | .ret, _, _ => rfl
  | .jmp, _ :: _, _ | .push, _ :: _, _ | .pop, _ :: _, _ | .prn, _ :: _, _ | .call, _ :: _, _ => rfl
  | .ldi, _ :: _ :: _, _ | .mul, _ :: _ :: _, _ | .div, _ :: _ :: _, _ => rfl

/-- The field check passes a well-formed instruction unchanged, and nothing else (R117). -/
theorem checkFields_eq_ok_iff {i j : Instr} : checkFields i = .ok j ↔ i.wf = true ∧ i = j := by
  rcases checkFields_cases i with ⟨hwf, e⟩ | ⟨v, hv, e⟩
  · simp [e, hwf]
  · have hwf : i.wf ≠ true := fun h => by simp [(firstBadField_none i).mpr h] at hv
    simp [e, hwf]

/-- An opcode's byte with enough bytes after it decodes to what the field check leaves (R113 to R117). -/
theorem decode_opcode_byte {o : Opcode} {rest : List Byte} (h : o.format.operandBytes ≤ rest.length) :
    decode (o.byte :: rest) = checkFields (buildInstr o (rest.getD 0 0) (rest.getD 1 0)) := by
  simp [decode, Nat.not_lt.mpr h]

/-- Whatever decodes begins with an opcode's byte that has enough bytes after it. -/
theorem opcode_of_decode {op : Byte} {rest : List Byte} {i : Instr} (h : decode (op :: rest) = .ok i) :
    ∃ o : Opcode, o.byte = op ∧ o.format.operandBytes ≤ rest.length ∧
      checkFields (buildInstr o (rest.getD 0 0) (rest.getD 1 0)) = .ok i := by
  rcases decode_cases op rest with ⟨-, e⟩ | ⟨o, -, -, e⟩ | ⟨o, ho, hlen, e⟩
  · simp [e] at h
  · simp [e] at h
  · exact ⟨o, byte_of_opcodeOfByte ho, hlen, e ▸ h⟩

/-- Settles O1: the opcode byte finds its opcode, the operand bytes build the instruction, and the check passes it. -/
theorem decodeOfEncodeIsTheInstruction : Obligations.DecodeOfEncodeIsTheInstruction := by
  intro i rest hwf
  have hlen : i.opcode.format.operandBytes ≤ (i.operands ++ rest).length := by simp [operands_length]
  calc decode (encode i ++ rest)
      = checkFields (buildInstr i.opcode ((i.operands ++ rest).getD 0 0) ((i.operands ++ rest).getD 1 0)) :=
        decode_opcode_byte hlen
    _ = .ok i := checkFields_eq_ok_iff.mpr (by rw [buildInstr_operands_append]; exact ⟨hwf, rfl⟩)

/-- Settles O2: the bytes are the opcode's byte, the operand bytes the instruction was built from, and the others. -/
theorem decodedBytesAreTheEncoding : Obligations.DecodedBytesAreTheEncoding := by
  intro bs i h
  cases bs with
  | nil => cases h
  | cons op rest =>
    obtain ⟨o, rfl, hlen, hcheck⟩ := opcode_of_decode h
    obtain ⟨hwf, rfl⟩ := checkFields_eq_ok_iff.mp hcheck
    refine ⟨hwf, rest.drop o.format.operandBytes, ?_⟩
    rw [encode, opcode_buildInstr, operands_buildInstr hlen, List.cons_append, List.take_append_drop]

/-- Settles O3, by running the decoder on the seven words. -/
theorem sampleEncodingsDecode : Obligations.SampleEncodingsDecode := by
  unfold Obligations.SampleEncodingsDecode
  decide

end Sys2Proof

namespace Sys2Proof.Machine

/-! ### Cutting a text -/

/-- Splitting at the named characters is the library's split. -/
theorem splitChars_eq_splitOnP (isSep : Char → Bool) (text : List Char) :
    splitChars isSep text = text.splitOnP isSep := by
  induction text with
  | nil => rfl
  | cons ch rest ih =>
    rw [List.splitOnP_cons_eq_if_modifyHead, splitChars, ih]
    cases h : rest.splitOnP isSep with
    | nil => exact absurd h (List.splitOnP_ne_nil isSep rest)
    | cons part more => rfl

/-- A text without a separator is one part. -/
theorem splitChars_of_no_sep {isSep : Char → Bool} {text : List Char} (h : ∀ ch ∈ text, isSep ch = false) :
    splitChars isSep text = [text] :=
  (splitChars_eq_splitOnP isSep text).trans (List.splitOnP_eq_singleton h)

/-- A part without a separator that a separator ends is the first part. -/
theorem splitChars_append_sep {isSep : Char → Bool} {part : List Char} {sep : Char} (h : ∀ ch ∈ part, isSep ch = false)
    (hsep : isSep sep = true) (rest : List Char) :
    splitChars isSep (part ++ sep :: rest) = part :: splitChars isSep rest := by
  simp only [splitChars_eq_splitOnP]
  rw [List.splitOnP_append_cons part rest hsep, List.splitOnP_eq_singleton h, List.singleton_append]

/-! ### The characters of written parts -/

/-- A word of letters and digits: what mnemonics and operands are written with. -/
def Plain (word : List Char) : Prop := ∀ ch ∈ word, ch.isAlphanum = true

/-- A mnemonic is a word of letters. -/
theorem mnemonic_plain (op : Opcode) : Plain (Opcode.mnemonic op) :=
  List.all_eq_true.mp (by cases op <;> rfl)

/-- What has a decimal value is digits. -/
theorem plain_of_decimalValue {digits : List Char} {acc v : Nat} (h : decimalValue acc digits = some v) :
    Plain digits := by
  induction digits generalizing acc with
  | nil => simp [Plain]
  | cons d rest ih =>
    rw [decimalValue] at h
    split at h
    · next hd =>
      have hplain : d.isAlphanum = true := by simpa [Char.isAlphanum, Char.isDigit] using .inr hd
      exact List.forall_mem_cons.mpr ⟨hplain, ih h⟩
    · cases h

/-- A byte is written in decimal as digits that denote it. -/
theorem decimal_byte_spec (v : Byte) : decimal v.toNat ≠ [] ∧ decimalValue 0 (decimal v.toNat) = some v.toNat := by
  have hv : v.toNat < 10 ^ 20 := Nat.lt_of_lt_of_le v.isLt (by norm_num)
  obtain ⟨hne, hval, -⟩ := decimal_spec hv
  exact ⟨hne, hval⟩

/-- A decimal byte is a word of digits. -/
theorem decimal_plain (v : Byte) : Plain (decimal v.toNat) :=
  plain_of_decimalValue (decimal_byte_spec v).2

/-- A register's name is a word of letters and digits. -/
theorem regName_plain (v : Byte) : Plain (regName v) :=
  List.forall_mem_cons.mpr ⟨by decide, decimal_plain v⟩

/-! ### The operands -/

/-- The written operands of an instruction, one by one (R90). -/
def writtenOperands : Instr → List (List Char)
  | .nop | .hlt | .ret => []
  | .jmp r | .push r | .pop r | .prn r | .call r => [regName r]
  | .ldi r imm => [regName r, decimal imm.toNat]
  | .mul ra rb | .div ra rb => [regName ra, regName rb]

/-- The written operands with commas between them (R90). -/
def joinedOperands (i : Instr) : List Char := [','].intercalate (writtenOperands i)

/-- The operand text is empty, or a blank and the joined operands, which are at least an `R`. -/
theorem operandText_cases (i : Instr) :
    (writtenOperands i = [] ∧ operandText i = []) ∨
    (writtenOperands i ≠ [] ∧ joinedOperands i ≠ [] ∧ operandText i = ' ' :: joinedOperands i) := by
  cases i with
  | nop | hlt | ret => exact .inl ⟨rfl, rfl⟩
  | jmp _ | push _ | pop _ | prn _ | call _ | ldi _ _ | mul _ _ | div _ _ =>
    exact .inr (by simp [operandText, joinedOperands, writtenOperands, regName, List.intercalate])

/-- Each written operand is a word of letters and digits. -/
theorem writtenOperands_plain (i : Instr) : ∀ word ∈ writtenOperands i, Plain word := by
  cases i with
  | nop | hlt | ret => simp [writtenOperands]
  | jmp _ | push _ | pop _ | prn _ | call _ | mul _ _ | div _ _ => simp [writtenOperands, regName_plain]
  | ldi _ _ => simp [writtenOperands, regName_plain, decimal_plain]

/-- A character of words joined by commas is a comma or one of a word. -/
theorem mem_of_mem_intercalate_comma {words : List (List Char)} {ch : Char} (h : ch ∈ [','].intercalate words) :
    ch = ',' ∨ ∃ word ∈ words, ch ∈ word := by
  induction words with
  | nil => simp at h
  | cons word rest ih =>
    cases rest with
    | nil => exact .inr ⟨word, by simp, by simpa using h⟩
    | cons next more =>
      rw [List.intercalate_cons_cons, List.mem_append, List.mem_append, List.mem_singleton] at h
      rcases h with (hword | hcomma) | hrest
      · exact .inr ⟨word, List.mem_cons_self, hword⟩
      · exact .inl hcomma
      · exact (ih hrest).imp_right fun ⟨w, hw, hch⟩ => ⟨w, List.mem_cons_of_mem _ hw, hch⟩

/-- The joined operands are written with letters, digits and commas. -/
theorem joinedOperands_chars {i : Instr} {ch : Char} (h : ch ∈ joinedOperands i) : ch.isAlphanum = true ∨ ch = ',' := by
  rcases mem_of_mem_intercalate_comma h with hcomma | ⟨word, hword, hch⟩
  · exact .inr hcomma
  · exact .inl (writtenOperands_plain i word hword ch hch)

/-- The joined operands are cut at the commas into the written operands. -/
theorem splitChars_joinedOperands {i : Instr} (h : writtenOperands i ≠ []) :
    splitChars (fun ch => decide (ch = ',')) (joinedOperands i) = writtenOperands i := by
  rw [splitChars_eq_splitOnP]
  refine List.splitOn_intercalate ',' (fun word hword hcomma => ?_) h
  exact absurd (writtenOperands_plain i word hword ',' hcomma) (by decide)

/-- The name of a register is read as its number (R90). -/
theorem parseReg_regName {v : Byte} (h : namesRegister v = true) : parseReg (regName v) = some v := by
  have hreg : ∀ n < 8, parseReg ('R' :: decimal n) = some (BitVec.ofNat 8 n) := by decide
  simpa [regName] using hreg v.toNat ((namesRegister_iff v).mp h)

/-- A decimal byte is read as that immediate (R90). -/
theorem parseImm_decimal (v : Byte) : parseImm (decimal v.toNat) = some v := by
  obtain ⟨hne, hval⟩ := decimal_byte_spec v
  have hle : v.toNat ≤ 255 := Nat.le_of_lt_succ v.isLt
  obtain ⟨d, rest, hd⟩ := List.exists_cons_of_ne_nil hne
  rw [hd] at hval ⊢
  simp [parseImm, hval, hle]

/-- The written operands are read as the operand bytes; a byte the format does not have is read as 0. -/
theorem parseOperands_writtenOperands {i : Instr} (h : i.wf = true) :
    parseOperands i.opcode.format (writtenOperands i) = some (i.operands.getD 0 0, i.operands.getD 1 0) := by
  have hreg : ∀ r ∈ i.regFields, parseReg (regName r) = some r := fun r hr =>
    parseReg_regName (List.all_eq_true.mp h r hr)
  cases i with
  | nop | hlt | ret => rfl
  | jmp r | push r | pop r | prn r | call r =>
    change (parseReg (regName r)).map (·, 0) = some (r, 0)
    rw [hreg r List.mem_cons_self, Option.map_some]
  | ldi r imm =>
    have hr := hreg r List.mem_cons_self
    simp [writtenOperands, Instr.operands, Instr.opcode, Opcode.format, Opcode.row, parseOperands, hr, parseImm_decimal]
  | mul ra rb | div ra rb =>
    have ha := hreg ra List.mem_cons_self
    have hb := hreg rb (List.mem_cons_of_mem _ List.mem_cons_self)
    simp [writtenOperands, Instr.operands, Instr.opcode, Opcode.format, Opcode.row, parseOperands, ha, hb]

/-! ### A statement -/

/-- A mnemonic is read as its opcode. -/
theorem opcodeOfMnemonic_mnemonic (op : Opcode) : opcodeOfMnemonic (Opcode.mnemonic op) = some op := by
  cases op <;> decide

/-- A mnemonic is not empty. -/
theorem mnemonic_ne_nil (op : Opcode) : Opcode.mnemonic op ≠ [] := by
  cases op <;> decide

/-- The blanks, at which a statement is cut into words (log entry 10). -/
def isBlank (ch : Char) : Bool := decide (ch = ' ' ∨ ch = '\t' ∨ ch = '\r')

/-- The words of a statement are the parts between blanks that are not empty. -/
theorem statementWords_eq (text : List Char) :
    statementWords text = (splitChars isBlank text).filter (fun w => decide (w ≠ [])) := rfl

/-- A letter, a digit or a comma is no blank. -/
theorem isBlank_eq_false {ch : Char} (h : ch.isAlphanum = true ∨ ch = ',') : isBlank ch = false := by
  rcases h with h | rfl
  · refine decide_eq_false ?_
    rintro (rfl | rfl | rfl) <;> exact absurd h (by decide)
  · rfl

/-- The words of a written instruction are its mnemonic and, if it has operands, these joined by commas. -/
theorem statementWords_asmText (i : Instr) :
    (writtenOperands i = [] ∧ statementWords (asmText i) = [Opcode.mnemonic i.opcode]) ∨
    (writtenOperands i ≠ [] ∧ statementWords (asmText i) = [Opcode.mnemonic i.opcode, joinedOperands i]) := by
  have hname : ∀ ch ∈ Opcode.mnemonic i.opcode, isBlank ch = false := fun ch hch =>
    isBlank_eq_false (.inl (mnemonic_plain i.opcode ch hch))
  rw [statementWords_eq, asmText]
  rcases operandText_cases i with ⟨hops, htext⟩ | ⟨hops, hjoined, htext⟩
  · rw [htext, List.append_nil, splitChars_of_no_sep hname]
    exact .inl ⟨hops, by simp [mnemonic_ne_nil]⟩
  · rw [htext, splitChars_append_sep hname rfl,
      splitChars_of_no_sep fun ch hch => isBlank_eq_false (joinedOperands_chars hch)]
    exact .inr ⟨hops, by simp [mnemonic_ne_nil, hjoined]⟩

/-- The written form of a well-formed instruction reads back as it (R90). -/
theorem parseStatement_asmText {i : Instr} (h : i.wf = true) : parseStatement (asmText i) = some i := by
  have hread := parseOperands_writtenOperands h
  have hbuild : buildInstr i.opcode (i.operands.getD 0 0) (i.operands.getD 1 0) = i := by
    simpa using buildInstr_operands_append i []
  rcases statementWords_asmText i with ⟨hops, hwords⟩ | ⟨hops, hwords⟩
  · rw [hops] at hread
    simp only [parseStatement, hwords, opcodeOfMnemonic_mnemonic, hread, Option.map_some, hbuild]
  · simp only [parseStatement, hwords, opcodeOfMnemonic_mnemonic, splitChars_joinedOperands hops, hread,
      Option.map_some, hbuild]

/-! ### A program -/

/-- The separators of statements (R90). -/
def isStatementSep (ch : Char) : Bool := decide (ch = ';' ∨ ch = '\n')

/-- A program is cut at the separators, read statement by statement, and encoded. -/
theorem assemble_eq (text : List Char) :
    assemble text = (parseStatements (splitChars isStatementSep text)).map (fun is => is.flatMap encode) := rfl

/-- No separator stands in the written form of an instruction. -/
theorem isStatementSep_asmText (i : Instr) : ∀ ch ∈ asmText i, isStatementSep ch = false := by
  have hplain : ∀ ch : Char, ch.isAlphanum = true → isStatementSep ch = false := fun ch h =>
    decide_eq_false (by rintro (rfl | rfl) <;> exact absurd h (by decide))
  intro ch hch
  rcases List.mem_append.mp hch with hname | htext
  · exact hplain ch (mnemonic_plain i.opcode ch hname)
  · rcases operandText_cases i with ⟨-, e⟩ | ⟨-, -, e⟩
    · simp [e] at htext
    · rw [e, List.mem_cons] at htext
      rcases htext with rfl | hjoined
      · rfl
      · rcases joinedOperands_chars hjoined with h | rfl
        · exact hplain ch h
        · rfl

/-- Statements separated by `;` or new lines are cut into the statements. -/
theorem splitChars_separated (i : Instr) {more : List (Char × Instr)} (h : ∀ p ∈ more, p.1 = ';' ∨ p.1 = '\n') :
    splitChars isStatementSep (asmText i ++ more.flatMap (fun p => p.1 :: asmText p.2)) =
      (i :: more.map Prod.snd).map asmText := by
  induction more generalizing i with
  | nil => simpa using splitChars_of_no_sep (isStatementSep_asmText i)
  | cons p rest ih =>
    obtain ⟨hp, hrest⟩ := List.forall_mem_cons.mp h
    rw [List.flatMap_cons, List.cons_append, splitChars_append_sep (isStatementSep_asmText i) (decide_eq_true hp),
      ih p.2 hrest]
    rfl

/-- Statements each ended by `;` are cut into the statements and the empty text after the last `;`. -/
theorem splitChars_ended (is : List Instr) :
    splitChars isStatementSep (is.flatMap (fun i => asmText i ++ [';'])) = is.map asmText ++ [[]] := by
  induction is with
  | nil => rfl
  | cons i rest ih =>
    rw [List.flatMap_cons, List.append_assoc, List.singleton_append,
      splitChars_append_sep (isStatementSep_asmText i) rfl, ih]
    rfl

/-- Written instructions are read in order, before the statements that follow them. -/
theorem parseStatements_asmText {is : List Instr} (h : ∀ i ∈ is, i.wf = true) (parts : List (List Char)) :
    parseStatements (is.map asmText ++ parts) = (parseStatements parts).map (is ++ ·) := by
  induction is with
  | nil => simp
  | cons i rest ih =>
    obtain ⟨hi, hrest⟩ := List.forall_mem_cons.mp h
    have hwords : statementWords (asmText i) ≠ [] := by
      rcases statementWords_asmText i with ⟨-, e⟩ | ⟨-, e⟩ <;> simp [e]
    rw [List.map_cons, List.cons_append, parseStatements, if_neg hwords, parseStatement_asmText hi, ih hrest]
    cases parseStatements parts <;> rfl

/-- A text that is cut into written instructions and statements that are none assembles to the encodings (R91). -/
theorem assemble_of_split {text : List Char} {is : List Instr} {parts : List (List Char)} (h : ∀ i ∈ is, i.wf = true)
    (hsplit : splitChars isStatementSep text = is.map asmText ++ parts) (hparts : parseStatements parts = some []) :
    assemble text = some (is.flatMap encode) := by
  simp [assemble_eq, hsplit, parseStatements_asmText h, hparts]

/-- Settles O53: a statement is read word by word, a program statement by statement. -/
theorem assemblyReadsBack : Obligations.AssemblyReadsBack := by
  refine ⟨fun i hi => parseStatement_asmText hi, fun i more hi hmore => ?_, fun is his => ?_⟩
  · have hwf : ∀ j ∈ i :: more.map Prod.snd, j.wf = true := by
      simpa [hi] using fun j sep hp => (hmore (sep, j) hp).2
    have hsplit := splitChars_separated i fun p hp => (hmore p hp).1
    simpa [List.flatMap_map] using assemble_of_split hwf (parts := []) (by simpa using hsplit) rfl
  · exact assemble_of_split his (splitChars_ended is) rfl

end Sys2Proof.Machine
end

section
/-! PROOFS. The cycle family (40_cycle.md): which bytes stand at ip and what they decode to, what a step does with
them, where each rule leaves ip, and the placing of an instruction at ip. -/

namespace Sys2Proof

/-! ### Opcode bytes by number, and what decode answers -/

/-- A byte is illegal exactly when its number is not that of an opcode's byte (R87). -/
theorem opcodeOfByte_eq_none_iff (b : Byte) :
    opcodeOfByte b = none ↔ b.toNat ∉ opcodes.map (fun o => o.byte.toNat) := by
  simp [opcodeOfByte, BitVec.toNat_inj]

/-- A byte whose number is among those of the opcodes with a property is the byte of such an opcode. -/
theorem exists_opcode_of_toNat_mem (p : Opcode → Bool) {b : Byte}
    (h : b.toNat ∈ (opcodes.filter p).map (fun o => o.byte.toNat)) : ∃ o : Opcode, p o = true ∧ o.byte = b := by
  obtain ⟨o, ho, e⟩ := List.mem_map.mp h
  exact ⟨o, (List.mem_filter.mp ho).2, BitVec.eq_of_toNat_eq e⟩

/-- An opcode's byte with too few bytes after it is a truncated instruction (R116). -/
theorem decode_of_too_short {o : Opcode} {rest : List Byte} (h : rest.length < o.format.operandBytes) :
    decode (o.byte :: rest) = .error .truncatedInstruction := by
  simp [decode, h]

/-- A bad register field is what the field check reports (R117). -/
theorem checkFields_of_bad {i : Instr} {v : Byte} (h : i.firstBadField = some v) :
    checkFields i = .error (.registerOutOfRange v) := by
  simp [checkFields, h]

/-- The field check reports no invalid instruction: it runs after the opcode byte is accepted (R117). -/
theorem checkFields_ne_invalidInstruction (i : Instr) (b : Byte) : checkFields i ≠ .error (.invalidInstruction b) := by
  rcases checkFields_cases i with ⟨-, e⟩ | ⟨v, -, e⟩ <;> simp [e]

/-- The decoder reports an invalid instruction exactly for an illegal byte, whatever follows it (R114). -/
theorem decode_eq_invalidInstruction_iff (op : Byte) (rest : List Byte) :
    decode (op :: rest) = .error (.invalidInstruction op) ↔ opcodeOfByte op = none := by
  rcases decode_cases op rest with ⟨ho, e⟩ | ⟨o, ho, -, e⟩ | ⟨o, ho, -, e⟩
  · simp [ho, e]
  · simp [ho, e]
  · simp [ho, e, checkFields_ne_invalidInstruction]

/-- Bytes decode to an instruction exactly when it is well-formed and its encoding stands at their front. -/
theorem decode_eq_ok_iff {bs : List Byte} {i : Instr} : decode bs = .ok i ↔ i.wf = true ∧ encode i <+: bs := by
  constructor
  · intro h
    obtain ⟨hwf, rest, e⟩ := decodedBytesAreTheEncoding bs i h
    exact ⟨hwf, rest, e.symm⟩
  · rintro ⟨hwf, rest, rfl⟩
    exact decodeOfEncodeIsTheInstruction i rest hwf

/-- No instruction is longer than the fetch window (R80). -/
theorem encode_length_le (i : Instr) : (encode i).length ≤ maxInstrBytes := by
  cases i <;> simp [encode, Instr.operands, maxInstrBytes]

/-! ### The first bad field of a built instruction (R117, R202) -/

/-- The first operand byte of every format that has operands is a register field, and it is checked first. -/
theorem firstBadField_buildInstr_first {o : Opcode} {o1 : Byte} (o2 : Byte) (ho : 0 < o.format.operandBytes)
    (h1 : 8 ≤ o1.toNat) : (buildInstr o o1 o2).firstBadField = some o1 := by
  have hfields : ∃ more, (buildInstr o o1 o2).regFields = o1 :: more := by
    cases o with
    | nop | hlt | ret => exact absurd ho (by decide)
    | jmp | push | pop | prn | call | ldi | mul | div => exact ⟨_, rfl⟩
  obtain ⟨more, e⟩ := hfields
  simp [Instr.firstBadField, e, Machine.namesRegister_ge h1]

/-- The second operand byte of format RR is checked after the first. -/
theorem firstBadField_buildInstr_second {o : Opcode} {o1 o2 : Byte} (ho : o.format = .RR) (h1 : o1.toNat < 8)
    (h2 : 8 ≤ o2.toNat) : (buildInstr o o1 o2).firstBadField = some o2 := by
  have hgood : namesRegister o1 = true := (namesRegister_iff o1).mpr h1
  have hfields : (buildInstr o o1 o2).regFields = [o1, o2] := by
    cases o with
    | mul | div => rfl
    | nop | hlt | jmp | ret | push | pop | prn | call | ldi => cases ho
  simp [Instr.firstBadField, hfields, hgood, Machine.namesRegister_ge h2]

end Sys2Proof

namespace Sys2Proof.Machine

variable {c : Config} {m : ArchState c}

/-! ### The bytes at ip -/

/-- The one or two code bytes after the opcode byte, as far as the code reaches. -/
def ArchState.operandsAtIp (m : ArchState c) : List Byte := (m.byteAt 1).toList ++ (m.byteAt 2).toList

/-- The byte `k` of the fetch is the code byte `k` past ip. -/
theorem fetch_getElem? (m : ArchState c) {k : Nat} (hk : k < maxInstrBytes) :
    (m.codeFrom m.ip.toNat maxInstrBytes)[k]? = m.byteAt k := by
  simp [codeFrom_getElem?, ArchState.byteAt, hk]

/-- Bytes that fit the fetch window stand at ip exactly when the fetch begins with them. -/
theorem holdsAtIp_iff_isPrefix {bs : List Byte} (hlen : bs.length ≤ maxInstrBytes) :
    m.holdsAtIp bs ↔ bs <+: m.codeFrom m.ip.toNat maxInstrBytes := by
  rw [List.prefix_iff_getElem?]
  refine forall₂_congr fun k hk => ?_
  rw [fetch_getElem? m (Nat.lt_of_lt_of_le hk hlen)]

/-- The fetch decodes to an instruction exactly when it is well-formed and its bytes stand at ip. -/
theorem decode_fetch_eq_ok_iff {i : Instr} :
    decode (m.codeFrom m.ip.toNat maxInstrBytes) = .ok i ↔ i.wf = true ∧ m.holdsAtIp (encode i) := by
  rw [decode_eq_ok_iff, holdsAtIp_iff_isPrefix (encode_length_le i)]

/-- The opcode byte of an instruction whose bytes stand at ip. -/
theorem holdsAtIp_encode_zero {i : Instr} (h : m.holdsAtIp (encode i)) : m.byteAt 0 = some i.opcode.byte :=
  h 0 (by simp [encode])

/-- The last byte of an instruction whose bytes stand at ip is in the code. -/
theorem holdsAtIp_encode_last {i : Instr} (h : m.holdsAtIp (encode i)) : m.byteAt i.operandBytes ≠ none := by
  rw [h i.operandBytes (by simp [encode, operands_length, Instr.operandBytes])]
  exact Option.some_ne_none _

/-- If the code ends at or before the byte `n` past ip, there are fewer than `n` operand bytes. -/
theorem operandsAtIp_length_lt {op : Byte} {n : Nat} (h0 : m.byteAt 0 = some op)
    (hend : m.codeLen.toNat ≤ m.ip.toNat + n) : m.operandsAtIp.length < n := by
  have hnone : (m.codeFrom m.ip.toNat maxInstrBytes)[n]? = none := by
    rw [codeFrom_getElem?, if_neg (by omega)]
  rw [codeFrom_ip m h0, List.getElem?_eq_none_iff] at hnone
  exact hnone

/-! ### What a step does, by what stands at ip -/

/-- A core that is not Running does no step (R124). -/
theorem step_of_not_running (hs : m.status ≠ .running) : step ⟨c, m⟩ = .next ⟨c, m⟩ := by
  rcases step_cases m with ⟨-, e⟩ | ⟨h, -⟩ | ⟨_, h, -⟩ | ⟨_, h, -⟩
  · exact e
  all_goals exact absurd h hs

/-- A run that begins with a next state goes on from it. -/
theorem run_succ_of_next {M : Host.Core} {s t : M.State} {k : Nat} (h : M.step s = .next t) :
    M.run (k + 1) s = M.run k t := by
  simp [Host.Core.run, h]

section
variable {op v : Byte} {o : Opcode}

/-- A step that fetches bytes that decode runs the instruction (R118, R119). -/
theorem step_of_decode_ok {i : Instr} (hs : m.status = .running) (h0 : m.byteAt 0 = some op)
    (hd : decode (op :: m.operandsAtIp) = .ok i) : step ⟨c, m⟩ = exec i ⟨c, m⟩ := by
  have hfetch := codeFrom_ip m h0
  rcases step_cases m with ⟨h, -⟩ | ⟨-, h, -⟩ | ⟨e, -, -, h, -⟩ | ⟨j, -, -, h, hstep⟩
  · exact absurd hs h
  · simp [(byteAt_none m 0).mpr h] at h0
  · rw [hfetch] at h
    cases hd.symm.trans h
  · rw [hfetch] at h
    cases hd.symm.trans h
    exact hstep

/-- A step that fetches bytes that do not decode takes the fault of the decode error (R114, R116, R117). -/
theorem step_of_decode_error {e : DecodeError} (hs : m.status = .running) (h0 : m.byteAt 0 = some op)
    (hd : decode (op :: m.operandsAtIp) = .error e) :
    step ⟨c, m⟩ = .next ⟨c, m.enterFault (raiseOfDecodeError e)⟩ := by
  have hfetch := codeFrom_ip m h0
  rcases step_cases m with ⟨h, -⟩ | ⟨-, h, -⟩ | ⟨e', -, -, h, hstep⟩ | ⟨j, -, -, h, -⟩
  · exact absurd hs h
  · simp [(byteAt_none m 0).mpr h] at h0
  · rw [hfetch] at h
    cases hd.symm.trans h
    exact hstep
  · rw [hfetch] at h
    cases hd.symm.trans h

/-- A step that fetches an opcode with all its operand bytes takes RegisterOutOfRange for the first bad field. -/
theorem step_of_bad_field (hs : m.status = .running) (h0 : m.byteAt 0 = some o.byte)
    (hlen : o.format.operandBytes ≤ m.operandsAtIp.length)
    (hv : (buildInstr o (m.operandsAtIp.getD 0 0) (m.operandsAtIp.getD 1 0)).firstBadField = some v) :
    step ⟨c, m⟩ = .next ⟨c, m.inFault .registerOutOfRange v⟩ :=
  step_of_decode_error hs h0 ((decode_opcode_byte hlen).trans (checkFields_of_bad hv))

end

/-! ### Rules: PUSH with room, where each leaves ip, and which fault is the advance's alone (R121) -/

/-- PUSH on a stack that is not full (R151). -/
theorem pushRule_room {r : Byte} (m : ArchState c) (h : r.toNat < 8) (hc : c.stackCap ≠ .entries m.stack.length) :
    pushRule r m = .ok { m with stack := truncByte (m.reg ⟨r.toNat, h⟩) :: m.stack } := by
  rcases stackPush_cases m (truncByte (m.reg ⟨r.toNat, h⟩)) with ⟨hfull, -⟩ | ⟨-, e⟩
  · exact absurd hfull hc
  · exact (pushRule_lt m h).trans e

/-- The byte 255 is the top word of the narrowest width, and no byte is the top word of another. -/
theorem zextWord_eq_top_iff (b : Byte) : (zextWord b : c.Word) = Word.top c.bits ↔ c.wordSize = .w8 ∧ b = 255 := by
  have hb := b.isLt
  rw [← BitVec.toNat_inj, zextWord_toNat, ← BitVec.toNat_inj, BitVec.toNat_allOnes]
  cases hw : c.wordSize with
  | w8 => simp [Config.bits, hw, WordSize.bits]
  | w16 | w32 | w64 =>
    simp only [Config.bits, hw, WordSize.bits, reduceCtorEq, false_and, iff_false]
    omega

/-- Only the rules of JMP and CALL, which write a register's value, and of RET, which writes the popped byte, move
ip. -/
theorem RuleResult_ip {i : Instr} {u : ArchState c} (h : RuleResult i m u) :
    u.ip = m.ip ∨
    (∃ (r : Byte) (hr : r.toNat < 8), (i = .jmp r ∨ i = .call r) ∧ u.ip = m.x[r.toNat]) ∨
    (i = .ret ∧ ∃ b : Byte, m.stack.head? = some b ∧ u.ip = zextWord b) := by
  cases i with
  | jmp r => obtain ⟨hr, rfl⟩ := h; exact .inr (.inl ⟨r, hr, .inl rfl, rfl⟩)
  | call r => obtain ⟨hr, _, rfl⟩ := h; exact .inr (.inl ⟨r, hr, .inr rfl, rfl⟩)
  | ret => obtain ⟨b, rest, hs, rfl⟩ := h; exact .inr (.inr ⟨rfl, b, by rw [hs]; rfl, rfl⟩)
  | nop | hlt => cases h; exact .inl rfl
  | prn r | ldi r imm => obtain ⟨_, rfl⟩ := h; exact .inl rfl
  | push r | mul ra rb => obtain ⟨_, _, rfl⟩ := h; exact .inl rfl
  | div ra rb => obtain ⟨_, _, _, rfl⟩ := h; exact .inl rfl
  | pop r => obtain ⟨_, _, _, _, rfl⟩ := h; exact .inl rfl

/-- No decode error is an IpOverflow. -/
theorem raiseOfDecodeError_kind_ne_ipOverflow (e : DecodeError) : (raiseOfDecodeError e).kind ≠ .ipOverflow := by
  cases e <;> simp [raiseOfDecodeError]

/-- No rule raises IpOverflow: only the advance does. -/
theorem RuleRaises_kind_ne_ipOverflow {i : Instr} {f : Raise} (h : RuleRaises i m f) : f.kind ≠ .ipOverflow := by
  cases i with
  | push _ | call _ | pop _ | ret | div _ _ => obtain ⟨-, rfl⟩ := h; simp
  | nop | hlt | prn _ | ldi _ _ | jmp _ | mul _ _ => exact h.elim

/-- Equal next states of one machine have equal architectural states. -/
theorem arch_eq_of_next_eq {t u : ArchState c}
    (h : (.next ⟨c, t⟩ : Host.Outcome State Fault Refusal) = .next ⟨c, u⟩) : t = u := by
  cases h
  rfl

/-- The kind of a fault entry's record is the kind that was raised. -/
theorem kind_eq_of_enterFault_eq {f : Raise} {kind : Fault} {info : Byte}
    (h : m.enterFault f = m.inFault kind info) : f.kind = kind := by
  have hrecord := congrArg ArchState.fault h
  simp only [enterFault_fault, Option.some.injEq, FaultRecord.mk.injEq] at hrecord
  exact hrecord.1

/-- An instruction that takes IpOverflow from a state that is not Faulted has a rule that leaves ip at the top. -/
theorem RuleResult_top_of_exec_ipOverflow {i : Instr} {info : Byte} (hs : m.status ≠ .faulted)
    (h : exec i ⟨c, m⟩ = .next ⟨c, m.inFault .ipOverflow info⟩) :
    ∃ u, RuleResult i (m.setIp (m.ip + BitVec.ofNat c.bits i.operandBytes)) u ∧ u.ip = Word.top c.bits := by
  have answer : ∀ {t : ArchState c}, exec i ⟨c, m⟩ = .next ⟨c, t⟩ → t = m.inFault .ipOverflow info :=
    fun e => arch_eq_of_next_eq (e.symm.trans h)
  rcases exec_cases m i with ⟨v, -, e⟩ | ⟨-, f, hf, e⟩ | ⟨-, u, hu, ⟨ht, -⟩ | ⟨-, e⟩⟩
  · cases kind_eq_of_enterFault_eq (answer e)
  · exact absurd (kind_eq_of_enterFault_eq (answer e)) (RuleRaises_kind_ne_ipOverflow hf)
  · exact ⟨u, hu, ht⟩
  · have hstatus : u.status = .faulted := congrArg ArchState.status (answer e)
    rcases RuleResult_status hu with hkeep | ⟨-, hhalt⟩
    · exact absurd (hkeep.symm.trans hstatus) hs
    · cases hhalt.symm.trans hstatus

/-- A step that takes IpOverflow runs an instruction whose rule leaves ip at the top; inside the code only a rule that
moves ip can (R121). -/
theorem cause_of_step_ipOverflow (hs : m.status = .running)
    (h : step ⟨c, m⟩ = .next ⟨c, m.inFault .ipOverflow 0⟩) :
    (∃ (r : Byte) (hr : r.toNat < 8), (m.byteAt 0 = some 3 ∨ m.byteAt 0 = some 80) ∧ m.byteAt 1 = some r ∧
      m.x[r.toNat] = Word.top c.bits) ∨
    (m.byteAt 0 = some 17 ∧ c.wordSize = .w8 ∧ m.stack.head? = some 255) := by
  rcases step_cases m with ⟨hn, -⟩ | ⟨-, -, e⟩ | ⟨e', -, -, -, e⟩ | ⟨i, -, -, hd, e⟩
  · exact absurd hs hn
  · cases congrArg ArchState.status (arch_eq_of_next_eq (e.symm.trans h))
  · exact absurd (kind_eq_of_enterFault_eq (arch_eq_of_next_eq (e.symm.trans h)))
      (raiseOfDecodeError_kind_ne_ipOverflow e')
  · obtain ⟨-, hbytes⟩ := decode_fetch_eq_ok_iff.mp hd
    obtain ⟨u, hu, htop⟩ := RuleResult_top_of_exec_ipOverflow (by simp [hs]) (e.symm.trans h)
    rcases RuleResult_ip hu with hkeep | ⟨r, hr, hi, hreg⟩ | ⟨rfl, b, hb, hbyte⟩
    · exact absurd (hkeep.symm.trans htop) (ip_add_ne_top m (holdsAtIp_encode_last hbytes))
    · refine .inl ⟨r, hr, ?_, ?_, hreg.symm.trans htop⟩
      · rcases hi with rfl | rfl
        · exact .inl (holdsAtIp_encode_zero hbytes)
        · exact .inr (holdsAtIp_encode_zero hbytes)
      · rcases hi with rfl | rfl <;> exact hbytes 1 (by simp [encode, Instr.operands])
    · obtain ⟨hw, rfl⟩ := (zextWord_eq_top_iff b).mp (hbyte.symm.trans htop)
      exact .inr ⟨holdsAtIp_encode_zero hbytes, hw, hb⟩

/-! ### Placing bytes at ip -/

/-- Writing a run of bytes leaves the addresses above it as they were. -/
theorem Memory.read_writeBytes_above {mem : Memory} (h : Memory.wf mem = true) (a : Nat) (bs : List Byte) {a' : Nat}
    (hle : a + bs.length ≤ a') : Memory.read (Memory.writeBytes mem a bs) a' = Memory.read mem a' := by
  induction bs generalizing mem a with
  | nil => rfl
  | cons b rest ih =>
    rw [List.length_cons] at hle
    rw [Memory.writeBytes, ih (Memory.write_wf h a b) (a + 1) (by omega),
      Memory.read_write_other a b (by omega) h]

/-- Placed bytes that fit below the top address are all in the code. -/
theorem placeAtIp_codeLen_toNat {bs : List Byte} (hroom : m.ip.toNat + bs.length < 2 ^ c.bits) :
    (m.placeAtIp bs).codeLen.toNat = max m.codeLen.toNat (m.ip.toNat + bs.length) := by
  have hlen := m.codeLen.isLt
  simp only [ArchState.placeAtIp, BitVec.toNat_ofNat]
  rw [Nat.mod_eq_of_lt] <;> omega

/-- Placed bytes that fit below the top address stand at ip. -/
theorem placeAtIp_holdsAtIp (hwf : Memory.wf m.code = true) {bs : List Byte}
    (hroom : m.ip.toNat + bs.length < 2 ^ c.bits) : (m.placeAtIp bs).holdsAtIp bs := by
  intro k hk
  have hin : m.ip.toNat + k < (m.placeAtIp bs).codeLen.toNat := by
    rw [placeAtIp_codeLen_toNat hroom]
    omega
  rw [ArchState.byteAt, placeAtIp_ip, if_pos hin, placeAtIp_code, Memory.read_writeBytes hwf _ bs k hk]

/-- A table word decodes to an instruction exactly when its three bytes do. -/
theorem decodeTableWord_eq_some_iff {nbits w : Nat} {i : Instr} :
    decodeTableWord nbits w = some i ↔ decode (tableBytes nbits w) = .ok i := by
  cases h : decode (tableBytes nbits w) <;> simp [decodeTableWord, h]

/-! ### The obligations -/

/-- Settles O19: the instruction's bytes at ip are what the fetch decodes. -/
theorem stepRunsTheDecodedInstruction : Obligations.StepRunsTheDecodedInstruction := by
  intro c m i hs hwf hbytes
  have h0 := holdsAtIp_encode_zero hbytes
  have hd := decode_fetch_eq_ok_iff.mpr ⟨hwf, hbytes⟩
  rw [codeFrom_ip m h0] at hd
  exact step_of_decode_ok hs h0 hd

/-- Settles O20, by the four kinds of step. -/
theorem endOfCodeEndsTheRun : Obligations.EndOfCodeEndsTheRun := by
  intro c m hs hend
  rcases step_cases m with ⟨h, -⟩ | ⟨-, -, e⟩ | ⟨_, -, h, -⟩ | ⟨_, -, h, -⟩
  · exact absurd hs h
  · exact e
  all_goals omega

/-- Settles O4: the decoder refuses exactly the illegal bytes, and the step takes that fault. -/
theorem byteOutsideTheMapFaults : Obligations.ByteOutsideTheMapFaults := by
  have hdecode : ∀ (op : Byte) (rest : List Byte), decode (op :: rest) = .error (.invalidInstruction op) ↔
      op.toNat ∉ [0, 1, 3, 17, 69, 70, 71, 80, 130, 162, 163] := fun op rest =>
    (decode_eq_invalidInstruction_iff op rest).trans (opcodeOfByte_eq_none_iff op)
  exact ⟨hdecode, fun c m op hs h0 hout => step_of_decode_error hs h0 ((hdecode op _).mpr hout)⟩

/-- Settles O21: the opcode has more operand bytes than the fetch gives. -/
theorem missingOperandFaults : Obligations.MissingOperandFaults := by
  intro c m op n hs h0 hop hend
  have htable : (op.toNat, n) ∈ (opcodes.filter (fun o => 0 < o.format.operandBytes)).map
      (fun o => (o.byte.toNat, o.format.operandBytes)) := hop
  obtain ⟨o, -, e⟩ := List.mem_map.mp htable
  obtain ⟨hbyte, rfl⟩ := Prod.mk.inj e
  obtain rfl := BitVec.eq_of_toNat_eq hbyte
  exact step_of_decode_error hs h0 (decode_of_too_short (operandsAtIp_length_lt h0 hend))

/-- Settles O22: the first bad field of the built instruction, and an LDI whose register is in range decodes. -/
theorem registerFieldsAreCheckedInOrder : Obligations.RegisterFieldsAreCheckedInOrder := by
  intro c m op o1 o2 hs h0 h1
  have hone : m.operandsAtIp = o1 :: (m.byteAt 2).toList := by simp [ArchState.operandsAtIp, h1]
  have htwo : m.byteAt 2 = some o2 → m.operandsAtIp = [o1, o2] := fun h2 => by simp [hone, h2]
  refine ⟨fun hop hbad => ?_, fun hop h2 hbad => ?_, fun hop h2 hgood hbad => ?_, fun hop h2 hgood => ?_⟩
  · obtain ⟨o, ho, rfl⟩ := exists_opcode_of_toNat_mem (fun o => o.format.operandBytes = 1) hop
    have hlen : o.format.operandBytes = 1 := of_decide_eq_true ho
    refine step_of_bad_field hs h0 (by simp [hone, hlen]) ?_
    rw [hone]
    exact firstBadField_buildInstr_first _ (by omega) hbad
  · obtain ⟨o, ho, rfl⟩ := exists_opcode_of_toNat_mem (fun o => o.format.operandBytes = 2) hop
    have hlen : o.format.operandBytes = 2 := of_decide_eq_true ho
    refine step_of_bad_field hs h0 (by simp [htwo h2, hlen]) ?_
    rw [htwo h2]
    exact firstBadField_buildInstr_first _ (by omega) hbad
  · obtain ⟨o, ho, rfl⟩ := exists_opcode_of_toNat_mem (fun o => o.format = .RR) hop
    have hformat : o.format = .RR := of_decide_eq_true ho
    refine step_of_bad_field hs h0 (by simp [htwo h2, hformat, Format.operandBytes]) ?_
    rw [htwo h2]
    exact firstBadField_buildInstr_second hformat hgood hbad
  · obtain rfl : op = Opcode.byte .ldi := BitVec.eq_of_toNat_eq hop
    have hwf : (Instr.ldi o1 o2).wf = true := by
      simp [Instr.wf, Instr.regFields, (namesRegister_iff o1).mpr hgood]
    refine step_of_decode_ok hs h0 (decode_eq_ok_iff.mpr ⟨hwf, ?_⟩)
    rw [htwo h2]
    exact ⟨[], rfl⟩

/-- Settles O24: each rule leaves ip at the top, where the advance raises; and the converse for a step. -/
theorem incrementAtTheTopFaults : Obligations.IncrementAtTheTopFaults := by
  refine ⟨fun c m => ⟨fun hip => ?_, fun r hr hip => ?_, fun ra rb ha hip => ?_, fun r hr htop => ?_,
    fun rest hstack hw => ?_⟩, fun c m hs h => cause_of_step_ipOverflow hs h⟩
  · have hip' : m.ip + BitVec.ofNat c.bits 0 = Word.top c.bits := by simpa using hip
    exact ⟨exec_of_top m .nop rfl rfl hip', exec_of_top m .hlt rfl rfl hip'⟩
  · exact ⟨exec_of_top m (.prn r) rfl (prnRule_lt _ hr) hip,
      fun hroom => exec_of_top m (.push r) rfl (pushRule_room _ hr hroom) hip, fun hne => by
        obtain ⟨b, rest, hstack⟩ := List.exists_cons_of_ne_nil hne
        exact exec_of_top m (.pop r) rfl (popRule_cons _ hr hstack) hip⟩
  · exact ⟨exec_of_top m (.ldi ra rb) rfl (ldiRule_lt _ rb ha) hip,
      fun hb => ⟨exec_of_top m (.mul ra rb) rfl (mulRule_lt _ ha hb) hip,
        fun hz => exec_of_top m (.div ra rb) rfl ((divRule_lt _ ha hb).trans (if_neg hz)) hip⟩⟩
  · exact ⟨exec_of_top m (.jmp r) rfl (jmpRule_lt _ hr) htop,
      fun hroom => exec_of_top m (.call r) rfl (callRule_room _ hr hroom) htop⟩
  · exact exec_of_top m .ret rfl (retRule_cons _ hstack) ((zextWord_eq_top_iff 255).mpr ⟨hw, rfl⟩)

/-- Settles O25: each kind of step answers a next state, an instruction by its rule. -/
theorem everyStepHasANextState : Obligations.EveryStepHasANextState := by
  refine fun c m => ⟨?_, fun i => ⟨_, exec_eq_runRule m i⟩⟩
  rcases step_cases m with ⟨-, e⟩ | ⟨-, -, e⟩ | ⟨_, -, -, -, e⟩ | ⟨i, -, -, -, e⟩
  · exact ⟨_, e⟩
  · exact ⟨_, e⟩
  · exact ⟨_, e⟩
  · exact ⟨_, e.trans (exec_eq_runRule m i)⟩

/-- Settles O26, by induction on the number of steps. -/
theorem stoppedCoreDoesNothing : Obligations.StoppedCoreDoesNothing := by
  intro c m k hs
  have hstep : Sys2Proof.core.step ⟨c, m⟩ = .next ⟨c, m⟩ := step_of_not_running hs
  induction k with
  | zero => rfl
  | succ k ih => rw [run_succ_of_next hstep, ih]

/-- Settles O27: of what a step can do, only the end of the code and HLT's rule leave Halted. -/
theorem onlyHltOrEndOfCodeHalts : Obligations.OnlyHltOrEndOfCodeHalts := by
  intro c m t hs h hhalted
  obtain ⟨t', ht, hcases⟩ := step_next_cases h
  cases ht
  rcases hcases with ⟨hn, -⟩ | ⟨-, ⟨hend, rfl⟩ | ⟨f, -, rfl⟩ | ⟨i, hbyte, hdone⟩⟩
  · exact absurd hs hn
  · exact .inl ⟨hend, rfl⟩
  · cases hhalted
  · rcases hdone.status_cases with ⟨hkeep, -⟩ | ⟨rfl, -⟩
    · simp [hkeep, hs] at hhalted
    · obtain ⟨u, rfl, -, rfl⟩ := hdone
      refine .inr ⟨hbyte, ?_⟩
      simp [ArchState.setIp, ArchState.halt, Instr.operandBytes, Instr.opcode, Opcode.format, Opcode.row,
        Format.operandBytes]

/-- Settles O54: the placed bytes stand at ip, so the instruction's bytes do. -/
theorem placedWordIsRunNext : Obligations.PlacedWordIsRunNext := by
  intro c m nbits w i hword hroom hwf
  obtain ⟨hi, hfront⟩ := decode_eq_ok_iff.mp (decodeTableWord_eq_some_iff.mp hword)
  have hplaced : (m.placeAtIp (tableBytes nbits w)).holdsAtIp (tableBytes nbits w) := placeAtIp_holdsAtIp hwf hroom
  have hbytes : (m.placeAtIp (tableBytes nbits w)).holdsAtIp (encode i) :=
    (holdsAtIp_iff_isPrefix (encode_length_le i)).mpr (hfront.trans ((holdsAtIp_iff_isPrefix le_rfl).mp hplaced))
  refine ⟨_, rfl, stepRunsTheDecodedInstruction c _ i rfl hi hbytes, rfl, rfl, rfl, rfl, rfl, fun a ha => ?_⟩
  rcases ha with hbelow | habove
  · exact Memory.read_writeBytes_below hwf _ _ hbelow
  · exact Memory.read_writeBytes_above hwf _ _ habove

end Sys2Proof.Machine
end

section
/-! PROOFS. The system family (41_system.md): NOP, HLT and PRN, each by its rule's result, and the decode faults of
format R (30_encoding.md). -/

namespace Sys2Proof.Machine

variable {c : Config} {m : ArchState c}

/-- The decode faults of format R, for every opcode of that format (R116, R117). -/
theorem decodeFaultsR_of_format {o : Opcode} (ho : o.format = .R) (m : ArchState c) : DecodeFaultsR o.byte m := by
  have hone : o.format.operandBytes = 1 := by rw [ho]; rfl
  refine fun hs h0 => ⟨fun h1 => ?_, fun r h1 hr => ?_⟩
  · have hshort := operandsAtIp_length_lt h0 ((byteAt_none m 1).mp h1)
    exact step_of_decode_error hs h0 (decode_of_too_short (hshort.trans_eq hone.symm))
  · have hops : m.operandsAtIp = r :: (m.byteAt 2).toList := by simp [ArchState.operandsAtIp, h1]
    refine step_of_bad_field hs h0 (by simp [hops, hone]) ?_
    rw [hops]
    exact firstBadField_buildInstr_first _ (by omega) hr

/-- Where a code byte stands at ip, ip is not the top (R121). -/
theorem ip_ne_top_of_byteAt_zero {b : Byte} (h0 : m.byteAt 0 = some b) : m.ip ≠ Word.top c.bits := by
  simpa using ip_add_ne_top m (k := 0) (by simp [h0])

/-- An instruction without operand bytes begins its execute part with ip where it was (R115). -/
theorem setIp_add_zero (m : ArchState c) : m.setIp (m.ip + BitVec.ofNat c.bits 0) = m := by
  simp [ArchState.setIp]

/-- NOP's meaning when the increment is not due at the top (R140). -/
theorem exec_nop (hip : m.ip ≠ Word.top c.bits) : exec .nop ⟨c, m⟩ = .next ⟨c, { m with ip := m.ip + 1 }⟩ :=
  exec_of_ok m .nop rfl (congrArg nopRule (setIp_add_zero m)) hip

/-- HLT's meaning when the increment is not due at the top (R141). -/
theorem exec_hlt (hip : m.ip ≠ Word.top c.bits) :
    exec .hlt ⟨c, m⟩ = .next ⟨c, { m with status := .halted, ip := m.ip + 1 }⟩ :=
  exec_of_ok m .hlt rfl (congrArg hltRule (setIp_add_zero m)) hip

/-- PRN's meaning when the increment is not due at the top (R142). -/
theorem exec_prn {r : Byte} (hr : r.toNat < 8) (hip : m.ip + 1 ≠ Word.top c.bits) :
    exec (.prn r) ⟨c, m⟩ = .next ⟨c, { m with out := m.out ++ [m.x[r.toNat]], ip := m.ip + 2 }⟩ := by
  have htwo : m.ip + 1 + 1 = m.ip + 2 :=
    (BitVec.add_assoc _ _ _).trans (congrArg (m.ip + ·) (BitVec.ofNat_add 1 1).symm)
  rw [exec_of_ok m (.prn r) rfl (prnRule_lt _ hr) hip, ← htwo]
  rfl

/-! ### The obligations -/

/-- Settles O5: NOP's meaning, and a step on the byte 0 runs it below the top. -/
theorem nopOnlyAdvances : Obligations.NopOnlyAdvances := by
  refine fun c m => ⟨rfl, exec_nop, fun hs h0 => ?_⟩
  rw [step_of_decode_ok hs h0 (decodeOfEncodeIsTheInstruction .nop _ rfl)]
  exact exec_nop (ip_ne_top_of_byteAt_zero h0)

/-- Settles O6: HLT's meaning, and a step on the byte 1 runs it below the top. -/
theorem hltHaltsPastItself : Obligations.HltHaltsPastItself := by
  refine fun c m => ⟨rfl, exec_hlt, fun hs h0 => ?_⟩
  rw [step_of_decode_ok hs h0 (decodeOfEncodeIsTheInstruction .hlt _ rfl)]
  exact exec_hlt (ip_ne_top_of_byteAt_zero h0)

/-- Settles O7: PRN's meaning, and the decode faults of its format. -/
theorem prnEmitsTheWholeWord : Obligations.PrnEmitsTheWholeWord :=
  fun _ m _ => ⟨rfl, exec_prn, decodeFaultsR_of_format (o := .prn) rfl m⟩

end Sys2Proof.Machine
end

section
/-! PROOFS. The data movement family (42_data_movement.md): LDI, PUSH and POP, each by its rule's result, and the
decode faults of LDI's format. -/

namespace Sys2Proof.Machine

variable {c : Config} {m : ArchState c}

/-- The advance from an instruction's last byte lands one past it (R115, R120). -/
theorem add_ofNat_add_one {w : Nat} (a : Word w) (n : Nat) :
    a + BitVec.ofNat w n + 1 = a + BitVec.ofNat w (n + 1) :=
  (BitVec.add_assoc _ _ _).trans (congrArg (a + ·) (BitVec.ofNat_add n 1).symm)

/-- The decode faults of LDI: two operand bytes, of which only the first is checked (R116, R117). -/
theorem decodeFaultsRI_ldi (m : ArchState c) : DecodeFaultsRI 130 m := by
  refine fun hs h0 => ⟨fun hnone => ?_, fun r imm h1 h2 hr => ?_⟩
  · have hend : m.codeLen.toNat ≤ m.ip.toNat + 2 := by
      rcases hnone with h | h
      · exact Nat.le_succ_of_le ((byteAt_none m 1).mp h)
      · exact (byteAt_none m 2).mp h
    exact missingOperandFaults c m 130 2 hs h0 (by decide) hend
  · obtain ⟨-, htwo, -⟩ := registerFieldsAreCheckedInOrder c m 130 r imm hs h0 h1
    exact htwo (by decide) h2 hr

/-- LDI's meaning when the increment is not due at the top (R150). -/
theorem exec_ldi {r : Byte} (imm : Byte) (hr : r.toNat < 8) (hip : m.ip + 2 ≠ Word.top c.bits) :
    exec (.ldi r imm) ⟨c, m⟩ = .next ⟨c, { m with x := m.x.set r.toNat (zextWord imm), ip := m.ip + 3 }⟩ := by
  have hend : m.ip + 2 + 1 = m.ip + 3 := add_ofNat_add_one m.ip 2
  rw [exec_of_ok m (.ldi r imm) rfl (ldiRule_lt _ imm hr) hip, ← hend]
  rfl

/-- PUSH on a full stack (R60, R151). -/
theorem pushRule_full {r : Byte} (m : ArchState c) (hr : r.toNat < 8) (hfull : c.stackCap = .entries m.stack.length) :
    pushRule r m = .error { kind := .stackOverflow, info := 0 } := by
  rcases stackPush_cases m (truncByte (m.reg ⟨r.toNat, hr⟩)) with ⟨-, e⟩ | ⟨hroom, -⟩
  · exact (pushRule_lt m hr).trans e
  · exact absurd hfull hroom

/-- PUSH's meaning on a stack that is not full, when the increment is not due at the top (R151). -/
theorem exec_push {r : Byte} (hr : r.toNat < 8) (hroom : c.stackCap ≠ .entries m.stack.length)
    (hip : m.ip + 1 ≠ Word.top c.bits) :
    exec (.push r) ⟨c, m⟩ = .next ⟨c, { m with stack := truncByte m.x[r.toNat] :: m.stack, ip := m.ip + 2 }⟩ := by
  have hend : m.ip + 1 + 1 = m.ip + 2 := add_ofNat_add_one m.ip 1
  rw [exec_of_ok m (.push r) rfl (pushRule_room _ hr hroom) hip, ← hend]
  rfl

/-- POP's meaning on a stack with a top, when the increment is not due at the top address (R152). -/
theorem exec_pop {r b : Byte} {rest : List Byte} (hr : r.toNat < 8) (hstack : m.stack = b :: rest)
    (hip : m.ip + 1 ≠ Word.top c.bits) :
    exec (.pop r) ⟨c, m⟩ =
      .next ⟨c, { m with stack := rest, x := m.x.set r.toNat (zextWord b), ip := m.ip + 2 }⟩ := by
  have hend : m.ip + 1 + 1 = m.ip + 2 := add_ofNat_add_one m.ip 1
  rw [exec_of_ok m (.pop r) rfl (popRule_cons _ hr hstack) hip, ← hend]
  rfl

/-! ### The obligations -/

/-- Settles O8: LDI's meaning, and the decode faults of its format. -/
theorem ldiZeroExtends : Obligations.LdiZeroExtends :=
  fun _ m _ imm => ⟨rfl, fun hr hip => ⟨zextWord imm, zextWord_toNat imm, exec_ldi imm hr hip⟩, decodeFaultsRI_ldi m⟩

/-- Settles O9: PUSH's meaning with room and without, and the decode faults of its format. -/
theorem pushTruncatesToAByte : Obligations.PushTruncatesToAByte := by
  refine fun c m r => ⟨rfl, fun hr hroom hip => ?_, fun hr hfull => ?_, decodeFaultsR_of_format (o := .push) rfl m⟩
  · exact ⟨truncByte m.x[r.toNat], truncByte_toNat _, exec_push hr hroom hip⟩
  · exact exec_of_error m (.push r) rfl (pushRule_full _ hr hfull)

/-- Settles O10: POP's meaning with a top and without, and the decode faults of its format. -/
theorem popZeroExtends : Obligations.PopZeroExtends := by
  refine fun c m r => ⟨rfl, fun hr b rest hstack hip => ?_, fun hr hempty => ?_,
    decodeFaultsR_of_format (o := .pop) rfl m⟩
  · exact ⟨zextWord b, zextWord_toNat b, exec_pop hr hstack hip⟩
  · exact exec_of_error m (.pop r) rfl (popRule_nil _ hr hempty)

/-- Settles O11: PUSH's meaning, then POP's on the stack it left. -/
theorem pushThenPopKeepsTheLowByte : Obligations.PushThenPopKeepsTheLowByte := by
  intro c m ra rb ha hb hroom hip
  refine ⟨_, exec_push ha hroom hip, fun u hstack huip => ⟨_, exec_pop hb hstack huip, rfl, ?_⟩⟩
  calc (u.x.set rb.toNat (zextWord (truncByte m.x[ra.toNat])))[rb.toNat].toNat
      = (zextWord (truncByte m.x[ra.toNat]) : c.Word).toNat := by rw [Vector.getElem_set_self]
    _ = (truncByte m.x[ra.toNat]).toNat := zextWord_toNat _
    _ = m.x[ra.toNat].toNat % 256 := truncByte_toNat _

end Sys2Proof.Machine
end

section
/-! PROOFS. The control transfer family (43_control_transfer.md): JMP, CALL and RET, each by its rule's result, and
the landing addresses of a step that completes. -/

namespace Sys2Proof.Machine

variable {c : Config} {m : ArchState c}

/-! ### The landing address and the return byte as natural numbers -/

/-- The advance does not wrap below the top (R120, R121). -/
theorem toNat_add_one_of_ne_top {w : Nat} {a : Word w} (h : a ≠ Word.top w) : (a + 1).toNat = a.toNat + 1 := by
  have hlt : a.toNat < 2 ^ w - 1 := BitVec.toNat_allOnes ▸ BitVec.lt_def.mp (BitVec.lt_allOnes_iff.mpr h)
  calc (a + 1).toNat
      = (a.toNat + 1 % 2 ^ w) % 2 ^ w := rfl
    _ = a.toNat + 1 := by rw [Nat.add_mod_mod, Nat.mod_eq_of_lt (by omega)]

/-- The byte CALL pushes: 256 divides 2^W, so reducing modulo 2^W first changes nothing (R161). -/
theorem truncByte_add_two_toNat (a : c.Word) : (truncByte (a + 2)).toNat = (a.toNat + 2) % 256 := by
  have hdvd : 256 ∣ 2 ^ c.bits := Nat.pow_dvd_pow 2 (eight_le_bits c)
  calc (truncByte (a + 2)).toNat
      = (a.toNat + 2 % 2 ^ c.bits) % 2 ^ c.bits % 256 := truncByte_toNat _
    _ = (a.toNat + 2) % 256 := by rw [Nat.add_mod_mod, Nat.mod_mod_of_dvd _ hdvd]

/-! ### What the three instructions mean -/

/-- JMP's meaning when the register does not hold the top address (R160). -/
theorem exec_jmp {r : Byte} (hr : r.toNat < 8) (hx : m.x[r.toNat] ≠ Word.top c.bits) :
    exec (.jmp r) ⟨c, m⟩ = .next ⟨c, { m with ip := m.x[r.toNat] + 1 }⟩ :=
  exec_of_ok m (.jmp r) rfl (jmpRule_lt _ hr) hx

/-- CALL's meaning on a stack that is not full, when the register does not hold the top address (R161). -/
theorem exec_call {r : Byte} (hr : r.toNat < 8) (hroom : c.stackCap ≠ .entries m.stack.length)
    (hx : m.x[r.toNat] ≠ Word.top c.bits) :
    exec (.call r) ⟨c, m⟩ =
      .next ⟨c, { m with stack := truncByte (m.ip + 2) :: m.stack, ip := m.x[r.toNat] + 1 }⟩ := by
  have hend : m.ip + 1 + 1 = m.ip + 2 := add_ofNat_add_one m.ip 1
  rw [exec_of_ok m (.call r) rfl (callRule_room _ hr hroom) hx, ← hend]
  rfl

/-- RET's meaning on a stack with a top, when the popped byte is not the top address (R162). -/
theorem exec_ret {b : Byte} {rest : List Byte} (hstack : m.stack = b :: rest) (hb : ¬ (c.wordSize = .w8 ∧ b = 255)) :
    exec .ret ⟨c, m⟩ = .next ⟨c, { m with stack := rest, ip := zextWord b + 1 }⟩ :=
  exec_of_ok m .ret rfl (retRule_cons _ hstack) (mt (zextWord_eq_top_iff b).mp hb)

/-- Where RET lands when the popped byte is not the top address (R162). -/
theorem zextWord_add_one_toNat {b : Byte} (hb : ¬ (c.wordSize = .w8 ∧ b = 255)) :
    (zextWord b + 1 : c.Word).toNat = b.toNat + 1 := by
  rw [toNat_add_one_of_ne_top (mt (zextWord_eq_top_iff b).mp hb), zextWord_toNat]

/-! ### Where a completed instruction lands -/

/-- A completed instruction lands one past where its rule left ip, as natural numbers. -/
theorem CompletesTo.ip_toNat {i : Instr} {t : ArchState c} (h : CompletesTo i m t) :
    ∃ u, RuleResult i (m.setIp (m.ip + BitVec.ofNat c.bits i.operandBytes)) u ∧ t.ip.toNat = u.ip.toNat + 1 := by
  obtain ⟨u, hu, hne, rfl⟩ := h
  exact ⟨u, hu, toNat_add_one_of_ne_top hne⟩

/-! ### The obligations -/

/-- Settles O12: JMP's meaning below the top and at it, and the decode faults of its format. -/
theorem jmpLandsOnePastTheRegister : Obligations.JmpLandsOnePastTheRegister :=
  fun _ m r => ⟨rfl, exec_jmp, fun hr htop => exec_of_top m (.jmp r) rfl (jmpRule_lt _ hr) htop,
    decodeFaultsR_of_format (o := .jmp) rfl m⟩

/-- Settles O13: CALL's meaning, its two faults in their order, and the decode faults of its format. -/
theorem callPushesTheReturnByte : Obligations.CallPushesTheReturnByte := by
  refine fun c m r => ⟨rfl, fun hr hroom hx => ?_, fun hr hfull => ?_, fun hr hroom htop => ?_,
    decodeFaultsR_of_format (o := .call) rfl m⟩
  · exact ⟨truncByte (m.ip + 2), truncByte_add_two_toNat m.ip, exec_call hr hroom hx⟩
  · exact exec_of_error m (.call r) rfl (callRule_full _ hr hfull)
  · exact exec_of_top m (.call r) rfl (callRule_room _ hr hroom) htop

/-- Settles O14: RET's meaning with a top and without, and at the one byte that is the top address. -/
theorem retLandsOnePastTheByte : Obligations.RetLandsOnePastTheByte := by
  refine fun c m => ⟨rfl, fun b rest hstack hb => ?_, fun hempty => ?_, fun rest hstack hw => ?_⟩
  · exact ⟨zextWord b + 1, zextWord_add_one_toNat hb, exec_ret hstack hb⟩
  · exact exec_of_error m .ret rfl (retRule_nil _ hempty)
  · exact exec_of_top m .ret rfl (retRule_cons _ hstack) ((zextWord_eq_top_iff 255).mpr ⟨hw, rfl⟩)

/-- Settles O15: CALL's meaning, then RET's on the stack it left, with the return byte as a natural number. -/
theorem returnSkipsOneByte : Obligations.ReturnSkipsOneByte := by
  intro c m r hr hroom hx hret
  have hbyte := truncByte_add_two_toNat m.ip
  have hlands : ¬ (c.wordSize = .w8 ∧ truncByte (m.ip + 2) = 255) :=
    fun ⟨hw, h255⟩ => hret ⟨hw, hbyte.symm.trans (congrArg BitVec.toNat h255)⟩
  refine ⟨_, exec_call hr hroom hx, fun u hstack => ⟨_, exec_ret hstack hlands, rfl, ?_⟩⟩
  have hip := (zextWord_add_one_toNat hlands).trans (congrArg (· + 1) hbyte)
  exact ⟨hip, fun hle => hip.trans (by omega)⟩

/-- Settles O16: a fault entry is Faulted, and an instruction that completes lands one past where its rule left ip,
which for RET is the popped byte. -/
theorem noLandingAtAddressZero : Obligations.NoLandingAtAddressZero := by
  intro c m t i h hs
  rcases exec_next_cases h with ⟨f, -, rfl⟩ | hdone
  · exact absurd rfl hs
  · obtain ⟨u, hu, hip⟩ := hdone.ip_toNat
    refine ⟨fun hzero => ?_, ?_⟩
    · simp [hzero] at hip
    · rintro rfl
      obtain ⟨b, rest, -, rfl⟩ := hu
      have hbyte : (zextWord b : c.Word).toNat = b.toNat := zextWord_toNat b
      have hb := b.isLt
      rw [setIp_ip, hbyte] at hip
      omega

end Sys2Proof.Machine
end

section
/-! PROOFS. The arithmetic family (44_alu.md): MUL and DIV, each by its rule's result, and the decode faults of
format RR (30_encoding.md). -/

namespace Sys2Proof.Machine

variable {c : Config} {m : ArchState c}

/-- If one of two operand bytes is missing, the code ends at or before the second (R116). -/
theorem codeLen_le_of_operand_none (hnone : m.byteAt 1 = none ∨ m.byteAt 2 = none) :
    m.codeLen.toNat ≤ m.ip.toNat + 2 := by
  rcases hnone with h | h
  · exact Nat.le_succ_of_le ((byteAt_none m 1).mp h)
  · exact (byteAt_none m 2).mp h

/-- The decode faults of format RR, whose opcode bytes are those of MUL and DIV (R116, R117). -/
theorem decodeFaultsRR_of_toNat_mem {op : Byte} (hop : op.toNat ∈ [162, 163]) (m : ArchState c) :
    DecodeFaultsRR op m := by
  have htwo : op.toNat ∈ [130, 162, 163] := List.mem_cons_of_mem _ hop
  refine fun hs h0 => ⟨fun hnone => ?_, fun ra rb h1 h2 hra => ?_, fun ra rb h1 h2 hra hrb => ?_⟩
  · exact missingOperandFaults c m op 2 hs h0 (by simpa using htwo) (codeLen_le_of_operand_none hnone)
  · obtain ⟨-, hfirst, -⟩ := registerFieldsAreCheckedInOrder c m op ra rb hs h0 h1
    exact hfirst htwo h2 hra
  · obtain ⟨-, -, hsecond, -⟩ := registerFieldsAreCheckedInOrder c m op ra rb hs h0 h1
    exact hsecond hop h2 hra hrb

/-- MUL's meaning when the increment is not due at the top (R170). -/
theorem exec_mul {ra rb : Byte} (ha : ra.toNat < 8) (hb : rb.toNat < 8) (hip : m.ip + 2 ≠ Word.top c.bits) :
    exec (.mul ra rb) ⟨c, m⟩ =
      .next ⟨c, { m with x := m.x.set ra.toNat (mulWord m.x[ra.toNat] m.x[rb.toNat]), ip := m.ip + 3 }⟩ := by
  have hend : m.ip + 2 + 1 = m.ip + 3 := add_ofNat_add_one m.ip 2
  rw [exec_of_ok m (.mul ra rb) rfl (mulRule_lt _ ha hb) hip, ← hend]
  rfl

/-- DIV's meaning on a divisor other than 0, when the increment is not due at the top (R171). -/
theorem exec_div {ra rb : Byte} (ha : ra.toNat < 8) (hb : rb.toNat < 8) (hd : m.x[rb.toNat] ≠ 0)
    (hip : m.ip + 2 ≠ Word.top c.bits) :
    exec (.div ra rb) ⟨c, m⟩ =
      .next ⟨c, { m with x := m.x.set ra.toNat (divWord m.x[ra.toNat] m.x[rb.toNat]), ip := m.ip + 3 }⟩ := by
  have hend : m.ip + 2 + 1 = m.ip + 3 := add_ofNat_add_one m.ip 2
  rw [exec_of_ok m (.div ra rb) rfl ((divRule_lt _ ha hb).trans (if_neg hd)) hip, ← hend]
  rfl

/-- The quotient with its remainder is the dividend (R171). -/
theorem toNat_eq_divWord_mul_add_mod {w : Nat} (n d : Word w) :
    n.toNat = (divWord n d).toNat * d.toNat + n.toNat % d.toNat := by
  rw [divWord_toNat, Nat.div_add_mod']

/-! ### The obligations -/

/-- Settles O17: MUL's meaning, and the decode faults of its format. -/
theorem mulKeepsTheProductModuloTheWord : Obligations.MulKeepsTheProductModuloTheWord :=
  fun _ m _ _ => ⟨rfl, fun ha hb hip => ⟨mulWord _ _, mulWord_toNat _ _, exec_mul ha hb hip⟩,
    decodeFaultsRR_of_toNat_mem (by decide) m⟩

/-- Settles O18: DIV's meaning on a divisor other than 0 and on 0, and the decode faults of its format. -/
theorem divWritesTheFloorQuotient : Obligations.DivWritesTheFloorQuotient := by
  refine fun c m ra rb => ⟨rfl, fun ha hb hd hip => ?_, fun ha hb hzero => ?_,
    decodeFaultsRR_of_toNat_mem (by decide) m⟩
  · have hpos : 0 < m.x[rb.toNat].toNat := BitVec.toNat_pos_of_ne_zero hd
    exact ⟨divWord m.x[ra.toNat] m.x[rb.toNat], m.x[ra.toNat].toNat % m.x[rb.toNat].toNat,
      toNat_eq_divWord_mul_add_mod _ _, Nat.mod_lt _ hpos, exec_div ha hb hd hip⟩
  · exact exec_of_error m (.div ra rb) rfl ((divRule_lt _ ha hb).trans (if_pos hzero))

end Sys2Proof.Machine
end

section
/-! PROOFS. The exceptions family (60_exceptions.md): what an instruction or a step raised, read off the fault entry it
answers, and the cause of each raise in the bytes at ip and in the state the step began in. -/

namespace Sys2Proof

/-! ### Why bytes do not decode -/

/-- A bad register field is 8 or more (R83). -/
theorem eight_le_of_firstBadField {i : Instr} {v : Byte} (h : i.firstBadField = some v) : 8 ≤ v.toNat := by
  have hbad := namesRegister_of_firstBadField h
  rwa [Bool.eq_false_iff, Ne, namesRegister_iff, Nat.not_lt] at hbad

/-- The register fields of a built instruction: the first operand byte of every format that has operands, and the
second of format RR (R81). -/
theorem regFields_buildInstr_cases {o : Opcode} {o1 o2 v : Byte} (h : v ∈ (buildInstr o o1 o2).regFields) :
    (0 < o.format.operandBytes ∧ v = o1) ∨ (o.format = .RR ∧ v = o2) := by
  cases o with
  | nop | hlt | ret => cases h
  | jmp | push | pop | prn | call | ldi => exact .inl ⟨by decide, List.mem_singleton.mp h⟩
  | mul | div =>
    rcases List.mem_pair.mp h with rfl | rfl
    · exact .inl ⟨by decide, rfl⟩
    · exact .inr ⟨rfl, rfl⟩

/-- The three reasons for a decode error (R114, R116, R117). -/
theorem decode_error_cases {op : Byte} {rest : List Byte} {e : DecodeError} (h : decode (op :: rest) = .error e) :
    (opcodeOfByte op = none ∧ e = .invalidInstruction op) ∨
    (∃ o : Opcode, o.byte = op ∧ rest.length < o.format.operandBytes ∧ e = .truncatedInstruction) ∨
    (∃ (o : Opcode) (v : Byte), o.byte = op ∧ o.format.operandBytes ≤ rest.length ∧
      (buildInstr o (rest.getD 0 0) (rest.getD 1 0)).firstBadField = some v ∧ e = .registerOutOfRange v) := by
  rcases decode_cases op rest with ⟨ho, e'⟩ | ⟨o, ho, hlen, e'⟩ | ⟨o, ho, hlen, e'⟩
  · exact .inl ⟨ho, Except.error.inj (h.symm.trans e')⟩
  · exact .inr (.inl ⟨o, byte_of_opcodeOfByte ho, hlen, Except.error.inj (h.symm.trans e')⟩)
  · rcases checkFields_cases (buildInstr o (rest.getD 0 0) (rest.getD 1 0)) with ⟨-, e''⟩ | ⟨v, hv, e''⟩
    · cases h.symm.trans (e'.trans e'')
    · exact .inr (.inr ⟨o, v, byte_of_opcodeOfByte ho, hlen, hv, Except.error.inj (h.symm.trans (e'.trans e''))⟩)

/-- The number of an opcode's byte is among those of the opcodes that share a property with it. -/
theorem toNat_byte_mem (p : Opcode → Bool) {o : Opcode} (h : p o = true) :
    o.byte.toNat ∈ (opcodes.filter p).map (fun o => o.byte.toNat) := by
  have ho : o ∈ opcodes := by cases o <;> decide
  exact List.mem_map_of_mem (List.mem_filter.mpr ⟨ho, h⟩)

end Sys2Proof

namespace Sys2Proof.Machine

variable {c : Config} {m : ArchState c} {kind : Fault} {info : Byte}

/-! ### The operand bytes at ip -/

/-- The operand byte `k` is the code byte one further past ip. -/
theorem operandsAtIp_getElem? {op : Byte} (h0 : m.byteAt 0 = some op) {k : Nat} (hk : k < 2) :
    m.operandsAtIp[k]? = m.byteAt (k + 1) := by
  have hfetch : m.codeFrom m.ip.toNat maxInstrBytes = op :: m.operandsAtIp := codeFrom_ip m h0
  rw [← fetch_getElem? m (Nat.succ_lt_succ hk), hfetch, List.getElem?_cons_succ]

/-- An operand byte the code reaches. -/
theorem byteAt_of_lt_operandsAtIp {op : Byte} (h0 : m.byteAt 0 = some op) {k : Nat} (hk : k < 2)
    (hlen : k < m.operandsAtIp.length) : m.byteAt (k + 1) = some (m.operandsAtIp.getD k 0) := by
  rw [← operandsAtIp_getElem? h0 hk, List.getElem?_eq_getElem hlen, List.getD_eq_getElem _ _ hlen]

/-- A truncated instruction misses the last operand byte of its format (R116). -/
theorem cause_of_truncated {o : Opcode} (h0 : m.byteAt 0 = some o.byte)
    (hlen : m.operandsAtIp.length < o.format.operandBytes) :
    (o.byte.toNat ∈ [3, 69, 70, 71, 80] ∧ m.byteAt 1 = none) ∨
    (o.byte.toNat ∈ [130, 162, 163] ∧ m.byteAt 2 = none) := by
  have missing : ∀ k, k < 2 → o.format.operandBytes = k + 1 → m.byteAt (k + 1) = none := by
    intro k hk hn
    rw [← operandsAtIp_getElem? h0 hk, List.getElem?_eq_none_iff]
    omega
  have oneByte := toNat_byte_mem (fun o => o.format.operandBytes = 1) (o := o)
  have twoBytes := toNat_byte_mem (fun o => o.format.operandBytes = 2) (o := o)
  cases hf : o.format with
  | Z => rw [hf] at hlen; cases hlen
  | R => exact .inl ⟨oneByte (by simp [hf, Format.operandBytes]), missing 0 (by decide) (by rw [hf]; rfl)⟩
  | RI | RR => exact .inr ⟨twoBytes (by simp [hf, Format.operandBytes]), missing 1 (by decide) (by rw [hf]; rfl)⟩

/-- A bad register field is the first operand byte, or of format RR the second (R117). -/
theorem cause_of_bad_field {o : Opcode} {v : Byte} (h0 : m.byteAt 0 = some o.byte)
    (hlen : o.format.operandBytes ≤ m.operandsAtIp.length)
    (hv : (buildInstr o (m.operandsAtIp.getD 0 0) (m.operandsAtIp.getD 1 0)).firstBadField = some v) :
    o.byte.toNat ∈ [71, 3, 69, 70, 80, 130, 162, 163] ∧
    (m.byteAt 1 = some v ∨ (o.byte.toNat ∈ [162, 163] ∧ m.byteAt 2 = some v)) := by
  have withOperands : 0 < o.format.operandBytes → o.byte.toNat ∈ [71, 3, 69, 70, 80, 130, 162, 163] := fun hpos =>
    (List.Perm.mem_iff (by decide)).mp (toNat_byte_mem (fun o => 0 < o.format.operandBytes) (decide_eq_true hpos))
  rcases regFields_buildInstr_cases (List.mem_of_find?_eq_some hv) with ⟨hpos, rfl⟩ | ⟨hRR, rfl⟩
  · exact ⟨withOperands hpos, .inl (byteAt_of_lt_operandsAtIp h0 (by decide) (by omega))⟩
  · have htwo : o.format.operandBytes = 2 := by rw [hRR]; rfl
    exact ⟨withOperands (by omega), .inr ⟨toNat_byte_mem (fun o => o.format = .RR) (decide_eq_true hRR),
      byteAt_of_lt_operandsAtIp h0 (by decide) (by omega)⟩⟩

/-! ### What was raised -/

/-- The record of a fault entry tells the raise (R205). -/
theorem raise_eq_of_enterFault_eq {f : Raise} (h : m.enterFault f = m.inFault kind info) : f = ⟨kind, info⟩ := by
  have hrecord := congrArg ArchState.fault h
  simp only [enterFault_fault, Option.some.injEq, FaultRecord.mk.injEq] at hrecord
  obtain ⟨rfl, -, rfl⟩ := hrecord
  rfl

/-- What a rule can raise does not depend on ip. -/
theorem RuleRaises_setIp {i : Instr} {f : Raise} {a : c.Word} : RuleRaises i (m.setIp a) f ↔ RuleRaises i m f := by
  cases i <;> rfl

/-- A completed instruction does not fault the core. -/
theorem CompletesTo.status_ne_faulted {i : Instr} {t : ArchState c} (h : CompletesTo i m t)
    (hs : m.status ≠ .faulted) : t.status ≠ .faulted := by
  rcases h.status_cases with ⟨hkeep, -⟩ | ⟨-, hhalt, -⟩
  · rwa [hkeep]
  · simp [hhalt]

/-- A term with a bad register field takes RegisterOutOfRange for the first such field (R204, log entry 11). -/
theorem exec_of_bad_field {i : Instr} {v : Byte} (m : ArchState c) (h : i.firstBadField = some v) :
    exec i ⟨c, m⟩ = .next ⟨c, m.inFault .registerOutOfRange v⟩ := by
  have hwf : i.wf ≠ true := fun hw => by simp [(firstBadField_none i).mpr hw] at h
  rcases exec_cases m i with ⟨v', hv', e⟩ | ⟨hw, -⟩ | ⟨hw, -⟩
  · obtain rfl := Option.some.inj (hv'.symm.trans h)
    exact e
  · exact absurd hw hwf
  · exact absurd hw hwf

/-- A well-formed instruction that faults: its rule raised the fault, or the advance did (R119 to R121). -/
theorem raise_of_exec_inFault {i : Instr} (hwf : i.wf = true) (hs : m.status ≠ .faulted)
    (h : exec i ⟨c, m⟩ = .next ⟨c, m.inFault kind info⟩) :
    RuleRaises i m ⟨kind, info⟩ ∨ (kind = .ipOverflow ∧ info = 0) := by
  have answer : ∀ {t : ArchState c}, exec i ⟨c, m⟩ = .next ⟨c, t⟩ → t = m.inFault kind info :=
    fun e => arch_eq_of_next_eq (e.symm.trans h)
  rcases exec_cases m i with ⟨v, hv, -⟩ | ⟨-, f, hf, e⟩ | ⟨-, u, hu, ⟨-, e⟩ | ⟨ht, e⟩⟩
  · cases hv.symm.trans ((firstBadField_none i).mpr hwf)
  · obtain rfl := raise_eq_of_enterFault_eq (answer e)
    exact .inl (RuleRaises_setIp.mp hf)
  · cases raise_eq_of_enterFault_eq (answer e)
    exact .inr ⟨rfl, rfl⟩
  · have hdone : CompletesTo i m (m.inFault kind info) := ⟨u, hu, ht, (answer e).symm⟩
    exact absurd rfl (hdone.status_ne_faulted hs)

/-- A step of a Running core that faults: decode raised the fault, or the rule of the instruction at ip, or the advance
(R111). -/
theorem raise_of_step_inFault (hs : m.status = .running) (h : step ⟨c, m⟩ = .next ⟨c, m.inFault kind info⟩) :
    (∃ (op : Byte) (e : DecodeError), m.byteAt 0 = some op ∧ decode (op :: m.operandsAtIp) = .error e ∧
      raiseOfDecodeError e = ⟨kind, info⟩) ∨
    (∃ i : Instr, m.holdsAtIp (encode i) ∧ RuleRaises i m ⟨kind, info⟩) ∨
    (kind = .ipOverflow ∧ info = 0) := by
  rcases step_cases m with ⟨hn, -⟩ | ⟨-, -, e⟩ | ⟨e', -, hip, hd, e⟩ | ⟨i, -, -, hd, e⟩
  · exact absurd hs hn
  · cases congrArg ArchState.status (arch_eq_of_next_eq (e.symm.trans h))
  · have h0 : m.byteAt 0 = some (Memory.read m.code m.ip.toNat) := by simp [ArchState.byteAt, hip]
    rw [codeFrom_ip m h0] at hd
    exact .inl ⟨_, e', h0, hd, raise_eq_of_enterFault_eq (arch_eq_of_next_eq (e.symm.trans h))⟩
  · obtain ⟨hwf, hbytes⟩ := decode_fetch_eq_ok_iff.mp hd
    rcases raise_of_exec_inFault hwf (by simp [hs]) (e.symm.trans h) with hrule | htop
    · exact .inr (.inl ⟨i, hbytes, hrule⟩)
    · exact .inr (.inr htop)

/-! ### The obligations -/

/-- Settles O29: the fault is decode's, by the three reasons for a decode error; or the rule's, by instruction; or the
advance's. -/
theorem eachFaultHasItsCause : Obligations.EachFaultHasItsCause := by
  intro c m kind info hs h
  rcases raise_of_step_inFault hs h with ⟨op, e, h0, hd, he⟩ | ⟨i, hbytes, hrule⟩ | ⟨rfl, rfl⟩
  · rcases decode_error_cases hd with ⟨hout, rfl⟩ | ⟨o, rfl, hlen, rfl⟩ | ⟨o, v, rfl, hlen, hv, rfl⟩
    · obtain ⟨rfl, rfl⟩ := Raise.mk.inj he
      exact ⟨_, h0, (opcodeOfByte_eq_none_iff _).mp hout, rfl⟩
    · obtain ⟨rfl, rfl⟩ := Raise.mk.inj he
      exact ⟨_, h0, cause_of_truncated h0 hlen, rfl⟩
    · obtain ⟨rfl, rfl⟩ := Raise.mk.inj he
      obtain ⟨hop, hfield⟩ := cause_of_bad_field h0 hlen hv
      exact ⟨_, h0, hop, eight_le_of_firstBadField hv, hfield⟩
  · refine ⟨_, holdsAtIp_encode_zero hbytes, ?_⟩
    cases i with
    | push r | call r =>
      obtain ⟨hfull, he⟩ := hrule
      cases he
      exact ⟨by simp [Instr.opcode, Opcode.byte, Opcode.row], hfull, rfl⟩
    | pop _ | ret =>
      obtain ⟨hempty, he⟩ := hrule
      cases he
      exact ⟨by simp [Instr.opcode, Opcode.byte, Opcode.row], hempty, rfl⟩
    | div ra rb =>
      obtain ⟨⟨hrb, hzero⟩, he⟩ := hrule
      cases he
      exact ⟨rfl, ⟨rb, hrb, hbytes 2 (by simp [encode, Instr.operands]), hzero⟩, rfl⟩
    | nop | hlt | prn _ | ldi _ _ | jmp _ | mul _ _ => exact hrule.elim
  · rcases cause_of_step_ipOverflow hs h with ⟨r, hr, h3 | h80, h1, hx⟩ | ⟨h17, hw, htop⟩
    · exact ⟨3, h3, .inl ⟨by decide, r, hr, h1, hx⟩, rfl⟩
    · exact ⟨80, h80, .inl ⟨by decide, r, hr, h1, hx⟩, rfl⟩
    · exact ⟨17, h17, .inr ⟨rfl, hw, htop⟩, rfl⟩

/-- Settles O28: of the answers of a step, only the fault entry is Faulted. -/
theorem faultsArePrecise : Obligations.FaultsArePrecise := by
  intro c m t hs h hfaulted
  obtain ⟨t', ht, hcases⟩ := step_next_cases h
  cases ht
  rcases hcases with ⟨hn, -⟩ | ⟨-, ⟨-, rfl⟩ | ⟨f, hlegal, rfl⟩ | ⟨i, -, hdone⟩⟩
  · exact absurd hs hn
  · cases hfaulted
  · exact ⟨f.kind, f.info, rfl, hlegal⟩
  · exact absurd hfaulted (hdone.status_ne_faulted (by simp [hs]))

/-- Settles O23: the first bad field is 8 or more, and the term's rule raises for it. -/
theorem illFormedTermRaisesRegisterOutOfRange : Obligations.IllFormedTermRaisesRegisterOutOfRange :=
  fun _ m _ _ h => ⟨eight_le_of_firstBadField h, exec_of_bad_field m h⟩

/-- Settles O30: a Faulted core is neither Running, so it does no step, nor Idle, so the run command has no effect. -/
theorem faultedIsLeftByReset : Obligations.FaultedIsLeftByReset := by
  intro c m hs
  obtain ⟨-, hrun⟩ := runCommandStartsOnlyFromIdle c m
  exact ⟨step_of_not_running (by simp [hs]), hrun (by simp [hs]), rfl⟩

end Sys2Proof.Machine
end

section
/-! PROOFS. The reset family (70_reset_and_hazards.md): the invariant at reset and in every reachable state, boot, and a
run without a load. -/

namespace Sys2Proof.Machine

variable {c : Config} {m : ArchState c}

/-! ### The invariant at reset and in every reachable state -/

/-- The reset state of a legal configuration has the invariant: it is Idle and its code is empty (R230, R232). -/
theorem inv_reset (hc : c.wf = true) : (ArchState.reset c).Inv :=
  inv_idle (codeLen := 0) (code := []) hc rfl (by simp)

/-- The invariant holds at reset, and every step and host action keeps it, so it holds in every reachable state. -/
theorem Reachable.inv {s : State} (h : Reachable s) : s.Inv := by
  induction h with
  | fresh c hc => exact inv_reset hc
  | step _ e ih => exact stepKeepsTheInvariant _ _ ih e
  | run _ ih => exact ArchState.Inv.runCommand ih
  | reset _ ih => exact ArchState.Inv.resetInput ih
  | load _ bytes e ih => exact ArchState.Inv.loadCode ih e

/-- In a legal state that is Faulted there is a record, and its address is ip (R205). -/
theorem ArchState.Inv.record_at_ip (h : m.Inv) (hs : m.status = .faulted) : ∃ f, m.fault = some f ∧ f.addr = m.ip := by
  obtain ⟨f, hf⟩ := Option.isSome_iff_exists.mp (h.faultedHasRecord.mp hs)
  obtain ⟨haddr, -⟩ := h.recordLegal f hf
  exact ⟨f, hf, haddr⟩

/-- A legal state that is Idle has the reset values of registers, ip, stack and output (R230). -/
theorem ArchState.Inv.idle_values (h : m.Inv) (hs : m.status = .idle) :
    (∀ (k : Nat) (hk : k < 8), m.x[k] = 0) ∧ m.ip = 0 ∧ m.stack = [] ∧ m.out = [] := by
  obtain ⟨hreset, -⟩ := resetSetsEveryValueButCode
  obtain ⟨hx, hip, -, hstack, -, hout, -⟩ := hreset c m
  rw [← h.idleIsReset hs] at hip hstack hout
  exact ⟨fun k hk => by rw [h.idleIsReset hs]; exact hx k hk, hip, hstack, hout⟩

/-! ### Load and run -/

/-- The code bytes from ip on are the same after the run command, which writes only the status (R37). -/
@[simp] theorem byteAt_runCommand (k : Nat) : m.runCommand.byteAt k = m.byteAt k := by
  rcases runCommand_cases m with ⟨-, e⟩ | ⟨-, e⟩ <;> rw [e]
  rfl

/-- After a load the code bytes from ip on are the loaded bytes: none is missing and none follows them (R34, R74). -/
theorem byteAt_of_loadCode {bytes : List Byte} {t : ArchState c} (e : m.loadCode bytes = .ok t) (k : Nat) :
    t.byteAt k = bytes[k]? := by
  rcases loadCode_cases m bytes with ⟨-, e'⟩ | ⟨-, -, e'⟩ | ⟨hs, hl, -⟩
  · cases e.symm.trans e'
  · cases e.symm.trans e'
  · obtain ⟨t', e', -, hlen, hread, -, hip, -⟩ := loadReplacesTheWholeCode c m bytes hs hl
    cases e.symm.trans e'
    by_cases hk : k < bytes.length
    · simp [ArchState.byteAt, hip, hlen, hk, hread k hk]
    · simp [ArchState.byteAt, hip, hlen, hk]

/-- Booting is loading into the core in its reset state and issuing the run command (R233). -/
theorem boot_of_loadCode {bytes : List Byte} {t : ArchState c} (e : (ArchState.reset c).loadCode bytes = .ok t) :
    State.boot c bytes = .ok ⟨c, t.runCommand⟩ := by
  simp [State.boot, e]

/-! ### The obligations -/

/-- Settles O37: the model's reset state is the one of the reference configuration, which is legal. -/
theorem resetStateIsLegal : Obligations.ResetStateIsLegal :=
  ⟨inv_reset (c := Config.reference) rfl, fun _ hc => inv_reset hc⟩

/-- Settles O40: reachable states have the invariant, which gives the values of an Idle and the record of a Faulted
core. -/
theorem reachableStatesAreLegal : Obligations.ReachableStatesAreLegal := by
  intro c m h
  have hinv : m.Inv := h.inv
  exact ⟨hinv, hinv.idle_values, hinv.record_at_ip⟩

/-- Settles O46: the load is performed and leaves the core Idle, so the run command changes its status alone. -/
theorem bootFetchesFromAddressZero : Obligations.BootFetchesFromAddressZero := by
  intro c bytes hl
  obtain ⟨t, hload, -, -, -, hx, hip, hidle, hstack, hfault, hout⟩ :=
    loadReplacesTheWholeCode c (ArchState.reset c) bytes (fun h => by cases h) hl
  obtain ⟨hrun, -⟩ := runCommandStartsOnlyFromIdle c t
  have hboot := boot_of_loadCode hload
  have hbyte (k : Nat) : t.runCommand.byteAt k = bytes[k]? := (byteAt_runCommand k).trans (byteAt_of_loadCode hload k)
  rw [hrun hidle] at hboot hbyte
  exact ⟨_, hboot, rfl, hip, hbyte, hx, hstack, hout, hfault⟩

/-- Settles O47: the code is empty, so the first step finds its end. -/
theorem runWithoutALoadHaltsAtOnce : Obligations.RunWithoutALoadHaltsAtOnce := by
  intro c
  refine ⟨rfl, ?_⟩
  obtain ⟨hrun, -⟩ := runCommandStartsOnlyFromIdle c (ArchState.reset c)
  rw [hrun rfl]
  exact endOfCodeEndsTheRun c _ rfl (Nat.le_refl _)

end Sys2Proof.Machine
end
